-- ==== Sys2Proof/Word.lean ====
section
/-! DEFINITION. The units of data the spec names: the 32-bit word and the byte (00_scope.md section 5). Nothing in this
hardware is signed. -/

namespace Sys2Proof

/-- A word: 32 bits, unsigned (00_scope.md section 5). `+` on it is the spec's `add32` and `^^^` its XOR (R6). -/
abbrev Word := BitVec 32

/-- A byte: 8 bits (00_scope.md section 5). -/
abbrev Byte := BitVec 8

end Sys2Proof
end

