-- ==== Sys2Proof/Config.lean ====
section
/-! DEFINITION. What the spec leaves open: the two named parameters of the hardware (R4, R69) and the free values that
stand for "holds no value" and "unspecified" (93_implementation_defined.md U1, U3, U6). None has a body, so no proof can
know a value of one. -/

namespace Sys2Proof

/-- `SEED_TABLE`, the constant 1042-word seed table whose values the source does not give (R4, U8, log 7). -/
opaque Config.seedTable : Vector Word 1042

/-- `SALT_STEP`, an open, total, deterministic function of the key table (R69 (a), U7, log 8). -/
opaque Config.saltStep : Vector Word 1042 → Word × Word

/-- The 1042 words of draw `n`: what the key table holds where the spec says it holds no value (U1, U6, logs 4, 6). -/
opaque Config.freeTable : Nat → Vector Word 1042

/-- Word `i` of draw `n`: what a register holds after a command that leaves it unspecified (U6, log 6). -/
opaque Config.freeWord : Nat → Nat → Word

/-- Byte `o` of draw `n`: what a byte of `BUF` that nothing has written reads as (U3, log 5). -/
opaque Config.freeByte : Nat → Nat → Byte

end Sys2Proof
end

