-- ==== Sys2Proof/Syntax.lean ====
section
/-! DEFINITION. The commands of the core (30_encoding.md), the raw fields of a command word, and the moves the host can
make on the register space (10_state.md R25, 20_memory.md R35, 30_encoding.md R49). -/

namespace Sys2Proof

/-- The Boolean argument `forward` of the block transform, the one operand a command carries: `DIR` (R47). -/
inductive Direction where
  /-- `DIR = 0`: the reverse (decrypt) direction. -/
  | reverse
  /-- `DIR = 1`: the forward (encrypt) direction. -/
  | forward
deriving DecidableEq, Repr

/-- The commands: one constructor per row of spec/opcode_table.json (R46). -/
inductive Instr where
  /-- `SEED` (R60). -/
  | seed
  /-- `DERIVE` (R61). -/
  | derive
  /-- `MUTATE` (R62 to R64). -/
  | mutate
  /-- `MIXSTEP` (R65). -/
  | mixstep
  /-- `RESHIFT` (R66). -/
  | reshift
  /-- `INIT1` (R67). -/
  | init1
  /-- `INIT2` (R68). -/
  | init2
  /-- `INIT0` (R69). -/
  | init0
  /-- `LOOKUP` (R71). -/
  | lookup
  /-- `XFORM` with its direction (R75). -/
  | xform (dir : Direction)
  /-- `SADEC` (R81). -/
  | sadec
  /-- `SAENC` (R82). -/
  | saenc
deriving DecidableEq, Repr

/-- The three fields of a command word, before decoding (R45): `OP` bits 7:0, `DIR` bit 8, `ZERO` bits 31:9. -/
structure CommandFields where
  op   : BitVec 8
  dir  : BitVec 1
  zero : BitVec 23
deriving DecidableEq, Repr

/-- How many bits a host access moves (R35). -/
inductive AccessWidth where
  | w8
  | w16
  | w32
  | w64
deriving DecidableEq, Repr

/-- One move of the host (R25, R26, R49, R105). Offsets are byte offsets of the register space, plain numbers (log 18);
the data of a write is its low bits, as many as the access moves. -/
inductive HostMove where
  /-- A read of the register space. -/
  | read (width : AccessWidth) (off : Nat)
  /-- A write to the register space. -/
  | write (width : AccessWidth) (off : Nat) (data : BitVec 64)
  /-- Reads of `STATUS` until `DONE = 1` (R49). -/
  | awaitDone
  /-- The core's one reset, at any time (R105). -/
  | reset
deriving DecidableEq, Repr

end Sys2Proof
end

