-- ==== Sys2Proof/Machine/State.lean ====
section
/-! DEFINITION. The machine's state (10_state.md R10): every element the spec names and, beside them, four fields of the
model's own, marked as such; the state after reset (R24, R105); the reasons a step can stop. -/

namespace Sys2Proof.Machine

/-- The key table `KT[0..1041]` (R11): 18 round words, then four blocks of 256 substitution words. -/
abbrev KeyTable := Vector Word 1042

/-- The diffusion words `D[0..2]` (R15). -/
structure Triple where
  d0 : Word
  d1 : Word
  d2 : Word
deriving DecidableEq, Repr

/-- The two 32-bit halves of a block (R16). -/
structure Block where
  left  : Word
  right : Word
deriving DecidableEq, Repr

/-- The fields of `STATUS` (R19): bit 0, bit 1, bits 7:4. The reserved bits read 0 and are no storage. -/
structure Status where
  busy   : Bool
  done   : Bool
  result : BitVec 4
deriving DecidableEq, Repr

/-- The data buffer `BUF` (R20), the bytes written so far by ascending offset. An offset that is not listed holds no value
(R24), so a listed byte never equals what an unlisted one holds. -/
abbrev Memory := List Host.Cell

/-- The size of `BUF`, `REGION` (R5, R20). -/
abbrev bufSize : Nat := 0x800

/-- The canonical form of `BUF`: offsets strictly rising, each below 0x800 (R20). -/
abbrev Memory.wf (m : Memory) : Prop :=
  m.Pairwise (fun c e => c.1 < e.1) ∧ ∀ c ∈ m, c.1 < bufSize

/-- The state of the machine. -/
@[ext]
structure State where
  /-- `KT` (R11). -/
  kt        : KeyTable
  /-- `GC` (R14). -/
  gc        : Word
  /-- `D[0..2]` (R15). -/
  d         : Triple
  /-- `L` (R16). -/
  l         : Word
  /-- `R` (R16). -/
  r         : Word
  /-- `SALT[0]` (R17). -/
  salt0     : Word
  /-- `SALT[1]` (R17). -/
  salt1     : Word
  /-- `STATUS` (R19). -/
  status    : Status
  /-- `CMDREG` (R18). -/
  cmdReg    : Word
  /-- `BUF` (R20). -/
  buf       : Memory
  /-- The model's own: the number of the next draw of free values (log 6). -/
  draws     : Nat
  /-- The model's own: the draw that gives this reset's free bytes (log 5). -/
  resetDraw : Nat
  /-- The model's own: what the host is about to do, oldest first (log 2). -/
  host      : List HostMove
  /-- The model's own: the data the host's latest read returned (log 16). -/
  hostData  : BitVec 64
deriving DecidableEq, Repr

/-- Why the machine stops with a fault: never. The core has no exceptions in the processor sense (R90, R97), and a read of
an element that holds no value gives a value (logs 3, 4, 5). Having no constructor says so: no step can fault. -/
inductive Fault where
deriving DecidableEq, Repr

/-- Why the model gives a move no meaning. -/
inductive Refusal where
  /-- An instruction that has no meaning yet, rejected by name in `exec`. Safe. No arm raises it now. -/
  | notModelled (mnemonic : String)
  /-- Raised by a host move: an access other than a `STATUS` read while `BUSY = 1`, which has unspecified effect (R26, U2:
  "refuse"). Safe: the host has fewer moves than a chip might tolerate. -/
  | hostAccessWhileBusy
  /-- Raised by a host move: an access of a width or alignment that R35 does not list (U4: "refuse"). Safe. -/
  | hostAccessNotListed
deriving DecidableEq, Repr

/-- The state a reset leaves when draw `n` is the next (R24, R105): `STATUS = 0`, idle; `KT` and `BUF` hold no
value (logs 4, 5); the registers hold 0, the model's choice (log 3). -/
def State.powerOn (n : Nat) : State where
  kt := Config.freeTable n
  gc := 0
  d := ⟨0, 0, 0⟩
  l := 0
  r := 0
  salt0 := 0
  salt1 := 0
  status := ⟨false, false, 0⟩
  cmdReg := 0
  buf := []
  draws := n + 1
  resetDraw := n
  host := []
  hostData := 0

/-- The machine right after reset (R24, R105). -/
def State.reset : State :=
  State.powerOn 0

end Sys2Proof.Machine
end

