-- ==== Sys2Proof/Machine/Flags.lean ====
section
/-! DEFINITION. The only condition-code-like state: the result codes and `STATUS` as the host reads it (10_state.md R19,
R22, 60_exceptions.md R90). There are no carry, zero, overflow or sign flags. -/

namespace Sys2Proof.Machine

/-- The result codes (R90). -/
inductive ResultCode where
  /-- Normal completion, of every command. -/
  | ok
  /-- Of the surrounding software; the core never produces it (R93). -/
  | invalidArgument
  /-- `SADEC`, step 5 (R91). -/
  | decryptionMismatch
  /-- `SAENC`, step a (R92). -/
  | alreadyEncryptedPrecondition
  /-- Any illegal command word (R94). -/
  | illegalCommand
deriving DecidableEq, Repr

/-- The number of a result code in `STATUS.RESULT` (R90). -/
def ResultCode.number : ResultCode → BitVec 4
  | .ok => 0
  | .invalidArgument => 1
  | .decryptionMismatch => 2
  | .alreadyEncryptedPrecondition => 3
  | .illegalCommand => 4

/-- `STATUS` as a word (R19): `BUSY` bit 0, `DONE` bit 1, `RESULT` bits 7:4, the reserved bits 0. -/
def statusWord (st : Status) : Word :=
  (0 : BitVec 24) ++ st.result ++ (0 : BitVec 2) ++ BitVec.ofBool st.done ++ BitVec.ofBool st.busy

end Sys2Proof.Machine
end

