-- ==== Sys2Proof/Machine/Operands.lean ====
section
/-! DEFINITION. The arithmetic primitives and the views of data that commands take their operands through: bytes of a
word, shifts, byte swap (00_scope.md R6), the round and substitution words of the key table (10_state.md R11), the triple
as 12 bytes (20_memory.md R33), a block as 64 bits (10_state.md R16), and the data constants (00_scope.md R5). -/

namespace Sys2Proof.Machine

/-- `byte0(v) = v[7:0]` (00_scope.md section 5). -/
def byte0 (v : Word) : Byte := v.extractLsb' 0 8
/-- `byte1(v) = v[15:8]`. -/
def byte1 (v : Word) : Byte := v.extractLsb' 8 8
/-- `byte2(v) = v[23:16]`. -/
def byte2 (v : Word) : Byte := v.extractLsb' 16 8
/-- `byte3(v) = v[31:24]`. -/
def byte3 (v : Word) : Byte := v.extractLsb' 24 8

/-- The word whose bytes, most significant first, are `b3 b2 b1 b0`: `{b3, b2, b1, b0}`. -/
def wordOfBytes (b3 b2 b1 b0 : Byte) : Word := b3 ++ b2 ++ b1 ++ b0

/-- `shl1(v) = (v * 2) mod 2^32`: bit 31 is lost (R6). -/
def shl1 (v : Word) : Word := v <<< 1

/-- `shr1(v) = floor(v / 2)`: logical, bit 0 is lost (R6, D13). -/
def shr1 (v : Word) : Word := v >>> 1

/-- `bswap32(v) = {byte0(v), byte1(v), byte2(v), byte3(v)}` (R6). -/
def bswap32 (v : Word) : Word := wordOfBytes (byte0 v) (byte1 v) (byte2 v) (byte3 v)

/-- `MAGIC0`, the word at buffer offset 0 of an encrypted header's plaintext (R5, D16, log 9). -/
def magic0 : Word := 0x72636E65
/-- `MAGIC1`, the word at buffer offset 4 (R5, D16, log 9). -/
def magic1 : Word := 0x6A624F79
/-- `SENTINEL` (R5, D17, C2, log 9). -/
def sentinel : Word := 0xE7FFDEFF

/-- `SEED_TABLE` (R4). -/
def seedTable : KeyTable := Config.seedTable

/-- `SALT_STEP(KT)` (R69). -/
def saltWords (kt : KeyTable) : Word × Word := Config.saltStep kt

/-- `P[i] = KT[i]` (R11). -/
def roundWord (kt : KeyTable) (i : Fin 18) : Word := kt.get ⟨i.val, by omega⟩

/-- `S[k][j] = KT[18 + 256*k + j]` (R11). -/
def substWord (kt : KeyTable) (k : Fin 4) (j : Byte) : Word :=
  kt.get ⟨18 + 256 * k.val + j.toNat, by have := j.isLt; have := k.isLt; omega⟩

/-- Byte `n` of the 12-byte view of the triple: `TB[4*k + m]` is byte `m` of `D[k]`, least significant first (R33, D12). -/
def tripleByte (d : Triple) (n : Fin 12) : Byte :=
  match n with
  | 0 => byte0 d.d0
  | 1 => byte1 d.d0
  | 2 => byte2 d.d0
  | 3 => byte3 d.d0
  | 4 => byte0 d.d1
  | 5 => byte1 d.d1
  | 6 => byte2 d.d1
  | 7 => byte3 d.d1
  | 8 => byte0 d.d2
  | 9 => byte1 d.d2
  | 10 => byte2 d.d2
  | 11 => byte3 d.d2

/-- `BLK64 = {L, R}`: the left half is the high one (R16, R77). -/
def blk64 (b : Block) : BitVec 64 := b.left ++ b.right

/-- The block of a 64-bit value (R16, R77). -/
def blockOf64 (x : BitVec 64) : Block := ⟨x.extractLsb' 32 32, x.extractLsb' 0 32⟩

end Sys2Proof.Machine
end

