-- ==== Sys2Proof/Machine/Ops.lean ====
section
/-! DEFINITION. The named operations over the buffer and the registers: reading and writing `BUF` (20_memory.md R31),
starting a command (10_state.md R18) and completing one (60_exceptions.md R97), and leaving an element unspecified (U6). -/

namespace Sys2Proof.Machine

/-- The value listed for an offset of `BUF`; none where it holds no value. -/
def Memory.lookup : Memory → Nat → Option Byte
  | [], _ => none
  | (a, b) :: rest, o => if a = o then some b else Memory.lookup rest o

/-- `BUF[o] <- v`, the list kept in its one form. -/
def Memory.insert : Memory → Nat → Byte → Memory
  | [], o, v => [(o, v)]
  | (a, b) :: rest, o, v =>
    if o < a then (o, v) :: (a, b) :: rest
    else if o = a then (o, v) :: rest
    else (a, b) :: Memory.insert rest o v

/-- `BUF[o]` as a command or the host reads it. An offset nothing has written reads as the free byte of that offset since
the last reset (R24, U3, log 5). -/
def bufByte (s : State) (o : Nat) : Byte :=
  (Memory.lookup s.buf o).getD (Config.freeByte s.resetDraw o)

/-- `BUF[o] <- v`. An offset outside `BUF` does not exist and nothing is stored there; no command reaches one (R30). -/
def setBufByte (o : Nat) (v : Byte) (s : State) : State :=
  if o < bufSize then { s with buf := Memory.insert s.buf o v } else s

/-- `MemRead(off, 4)`: little-endian (R31). -/
def memRead (s : State) (off : Nat) : Word :=
  wordOfBytes (bufByte s (off + 3)) (bufByte s (off + 2)) (bufByte s (off + 1)) (bufByte s off)

/-- `MemWrite(off, 4, v)`: little-endian (R31). -/
def memWrite (off : Nat) (v : Word) (s : State) : State :=
  setBufByte (off + 3) (byte3 v) (setBufByte (off + 2) (byte2 v) (setBufByte (off + 1) (byte1 v)
    (setBufByte off (byte0 v) s)))

/-- All of `KT` written. -/
def setTable (kt : KeyTable) (s : State) : State := { s with kt := kt }

/-- `D[0..2]` written. -/
def setTriple (d : Triple) (s : State) : State := { s with d := d }

/-- `L` and `R` written: `BLK64` (R16). -/
def setBlock (b : Block) (s : State) : State := { s with l := b.left, r := b.right }

/-- `SALT[0..1]` written (R17). -/
def setSalt (w : Word × Word) (s : State) : State := { s with salt0 := w.1, salt1 := w.2 }

/-- `L` and `R` hold unspecified values: two free words (R16, D21, U6, log 6). -/
def loseBlock (s : State) : State :=
  { s with
    l := Config.freeWord s.draws 0
    r := Config.freeWord s.draws 1
    draws := s.draws + 1 }

/-- `KT`, `D`, `L` and `R` hold unspecified values: free words, all of one draw (R85, D21, U6, log 6). -/
def loseCipherState (s : State) : State :=
  { s with
    kt := Config.freeTable s.draws
    l := Config.freeWord s.draws 0
    r := Config.freeWord s.draws 1
    d := ⟨Config.freeWord s.draws 2, Config.freeWord s.draws 3, Config.freeWord s.draws 4⟩
    draws := s.draws + 1 }

/-- `complete(code)`, the analogue of taking an exception when the code is not 0 (R97): `BUSY <- 0`, `DONE <- 1`,
`RESULT <- code`; nothing is saved and control goes nowhere. There is no return from it (R98). -/
def complete (code : ResultCode) (s : State) : State :=
  { s with status := ⟨false, true, code.number⟩ }

/-- A write of `w` to `CMD` while idle starts a command (R18): `CMDREG <- w`, `BUSY <- 1`, `DONE <- 0`, `RESULT <- 0`. -/
def issue (w : Word) (s : State) : State :=
  { s with cmdReg := w, status := ⟨true, false, 0⟩ }

/-- Reset, whatever the core was doing (R105, U12): the state of R24. The host's pending moves and the data it last read
are the host's and stay; the free values go on with fresh ones (logs 5, 17). -/
def applyReset (s : State) : State :=
  { State.powerOn s.draws with host := s.host, hostData := s.hostData }

end Sys2Proof.Machine
end

