-- ==== Sys2Proof/Machine/Feistel.lean ====
section
/-! DEFINITION. The substitution unit and the 16-round block transform, and the commands `LOOKUP` and `XFORM`
(41_feistel_core.md). -/

namespace Sys2Proof.Machine

/-- The substitution function `F(v)` over a key table (R70): bytes MSB first, `d + (c XOR (b + a))`, both additions
modulo 2^32. -/
def substitute (kt : KeyTable) (v : Word) : Word :=
  let a := substWord kt 0 (byte3 v)
  let b := substWord kt 1 (byte2 v)
  let c := substWord kt 2 (byte1 v)
  let d := substWord kt 3 (byte0 v)
  d + (c ^^^ (b + a))

/-- One round with round word `i` on the pair `(a, b)`, here `left` and `right` (R72). -/
def blockRound (kt : KeyTable) (x : Block) (i : Fin 18) : Block :=
  let c := roundWord kt i ^^^ x.left
  ⟨x.right ^^^ substitute kt c, c⟩

/-- Round words 0 to 15, ascending (R73). -/
def forwardRounds : List (Fin 18) :=
  [0, 1, 2, 3, 4, 5, 6, 7, 8, 9, 10, 11, 12, 13, 14, 15]

/-- Round words 17 down to 2 (R74). -/
def reverseRounds : List (Fin 18) :=
  [17, 16, 15, 14, 13, 12, 11, 10, 9, 8, 7, 6, 5, 4, 3, 2]

/-- The rounds in the order given. -/
def runRounds (kt : KeyTable) (rounds : List (Fin 18)) (x : Block) : Block :=
  rounds.foldl (blockRound kt) x

/-- `ENC`, the forward transform (R73): the final `a` meets word 16 and goes right, the final `b` meets word 17 and goes
left. -/
@[irreducible] def enc (kt : KeyTable) (x : Block) : Block :=
  let y := runRounds kt forwardRounds x
  ⟨y.right ^^^ roundWord kt 17, y.left ^^^ roundWord kt 16⟩

/-- `DEC`, the reverse transform (R74): the final `b` meets word 0 and goes left, the final `a` meets word 1 and goes
right. -/
@[irreducible] def dec (kt : KeyTable) (x : Block) : Block :=
  let y := runRounds kt reverseRounds x
  ⟨y.right ^^^ roundWord kt 0, y.left ^^^ roundWord kt 1⟩

/-- `transformBlock(table, left, right, forward)` (R75). -/
def transform (kt : KeyTable) : Direction → Block → Block
  | .forward, x => enc kt x
  | .reverse, x => dec kt x

/-- `LOOKUP`: `L <- F(L)` (R71). -/
def execLookup (s : State) : Host.Outcome State Fault Refusal :=
  .next (complete .ok (setBlock ⟨substitute s.kt s.l, s.r⟩ s))

/-- `XFORM`: `(L, R) <- ENC(L, R)` or `DEC(L, R)` (R75). -/
def execXform (dir : Direction) (s : State) : Host.Outcome State Fault Refusal :=
  .next (complete .ok (setBlock (transform s.kt dir ⟨s.l, s.r⟩) s))

end Sys2Proof.Machine
end

