-- ==== Sys2Proof/Machine/Derivation.lean ====
section
/-! DEFINITION. The key-table derivation engine and its commands `SEED`, `DERIVE`, `MUTATE`, `MIXSTEP`, `RESHIFT`,
`INIT1`, `INIT2`, `INIT0` (40_key_table_derivation.md). -/

namespace Sys2Proof.Machine

/-- What the derivation commands work on: the key table and the triple. -/
structure KeyState where
  kt : KeyTable
  d  : Triple
deriving DecidableEq, Repr

/-- `(gameCode, gameCode >> 1, gameCode << 1)` (R61). -/
def deriveTriple (gc : Word) : Triple := ⟨gc, shr1 gc, shl1 gc⟩

/-- `D[1] <- shl1(D[1])`, `D[2] <- shr1(D[2])`, on the triple as it stands (R66, D14). -/
def reshiftTriple (d : Triple) : Triple := ⟨d.d0, shl1 d.d1, shr1 d.d2⟩

/-- The accumulator of round word `j` (R63): bytes `(4*j + i) mod 8` for `i` = 0 to 3, each shifted in from below, so the
first ends up most significant. -/
def xorWord (d : Triple) (j : Nat) : Word :=
  [0, 1, 2, 3].foldl
    (fun acc i => (acc <<< 8) ||| (tripleByte d ⟨(4 * j + i) % 8, by omega⟩).setWidth 32) (0 : Word)

/-- `MUTATE` phase 1 (R63): the accumulator XORed into each of the 18 round words; the substitution words stay. -/
@[irreducible] def mutatePhase1 (kt : KeyTable) (d : Triple) : KeyTable :=
  Vector.ofFn fun i : Fin 1042 => if i.val < 18 then kt.get i ^^^ xorWord d i.val else kt.get i

/-- A table under regeneration and the running two-word accumulator `(t1, t2)` (R64). -/
structure Regeneration where
  kt  : KeyTable
  acc : Block
deriving DecidableEq, Repr

/-- One transform of phase 2 (R64): forward, over the table as it stands, its left output to `KT[2n]` and its right output
to `KT[2n + 1]`; both writes land before the next transform (R38, R108). -/
def regenerate (g : Regeneration) (n : Fin 521) : Regeneration :=
  let t := enc g.kt g.acc
  ⟨(g.kt.set (2 * n.val) t.left (by omega)).set (2 * n.val + 1) t.right (by omega), t⟩

/-- The nine transforms that rewrite the round words `KT[0..17]` (R64). -/
def regenerateRoundWords (g : Regeneration) : Regeneration :=
  (List.finRange 9).foldl (fun g n => regenerate g ⟨n.val, by omega⟩) g

/-- The 512 transforms that rewrite the substitution words `KT[18..1041]`, ascending (R64). -/
def regenerateSubstWords (g : Regeneration) : Regeneration :=
  (List.finRange 512).foldl (fun g n => regenerate g ⟨9 + n.val, by omega⟩) g

/-- `MUTATE` phase 2 (R64): the accumulator starts at zero and runs on from the round words to the substitution words. -/
@[irreducible] def mutatePhase2 (kt : KeyTable) : KeyTable :=
  (regenerateSubstWords (regenerateRoundWords ⟨kt, ⟨0, 0⟩⟩)).kt

/-- `mutate(table, threeWords)` (R62). -/
def mutateTable (kt : KeyTable) (d : Triple) : KeyTable :=
  mutatePhase2 (mutatePhase1 kt d)

/-- The conditioning of the triple in a mix step, `CONDITION` (R65, D11, log 10): `(D[2], D[1]) <- ENC(D[2], D[1])`, then
`(D[1], D[0]) <- ENC(D[1], D[0])`, over the table before the step's mutation. -/
def conditionTriple (kt : KeyTable) (d : Triple) : Triple :=
  let hi := enc kt ⟨d.d2, d.d1⟩
  let lo := enc kt ⟨hi.right, d.d0⟩
  ⟨lo.right, lo.left, hi.left⟩

/-- One mix step (R65): condition the triple, then mutate the table with it. -/
def mixStep (k : KeyState) : KeyState :=
  let d := conditionTriple k.kt k.d
  ⟨mutateTable k.kt d, d⟩

/-- "init1" over a seed table (R67): seed, derive, two mix steps. -/
def init1 (seed : KeyTable) (gc : Word) : KeyState :=
  mixStep (mixStep ⟨seed, deriveTriple gc⟩)

/-- "init2" (R68): re-shift, one mix step. -/
def init2 (k : KeyState) : KeyState :=
  mixStep ⟨k.kt, reshiftTriple k.d⟩

/-- The table and the triple written back. -/
def setKey (k : KeyState) (s : State) : State := setTriple k.d (setTable k.kt s)

/-- `SEED` (R60). -/
def execSeed (s : State) : Host.Outcome State Fault Refusal :=
  .next (complete .ok (setTable seedTable s))

/-- `DERIVE` (R61). -/
def execDerive (s : State) : Host.Outcome State Fault Refusal :=
  .next (complete .ok (setTriple (deriveTriple s.gc) s))

/-- `MUTATE` (R62). -/
def execMutate (s : State) : Host.Outcome State Fault Refusal :=
  .next (complete .ok (loseBlock (setTable (mutateTable s.kt s.d) s)))

/-- `MIXSTEP` (R65). -/
def execMixstep (s : State) : Host.Outcome State Fault Refusal :=
  .next (complete .ok (loseBlock (setKey (mixStep ⟨s.kt, s.d⟩) s)))

/-- `RESHIFT` (R66). -/
def execReshift (s : State) : Host.Outcome State Fault Refusal :=
  .next (complete .ok (setTriple (reshiftTriple s.d) s))

/-- `INIT1` (R67). -/
def execInit1 (s : State) : Host.Outcome State Fault Refusal :=
  .next (complete .ok (loseBlock (setKey (init1 seedTable s.gc) s)))

/-- `INIT2` (R68). -/
def execInit2 (s : State) : Host.Outcome State Fault Refusal :=
  .next (complete .ok (loseBlock (setKey (init2 ⟨s.kt, s.d⟩) s)))

/-- `INIT0` (R69): as `INIT1`, then the salt words from the table, which the step does not write. -/
def execInit0 (s : State) : Host.Outcome State Fault Refusal :=
  .next (complete .ok (loseBlock
    (setSalt (saltWords (init1 seedTable s.gc).kt) (setKey (init1 seedTable s.gc) s))))

end Sys2Proof.Machine
end

