-- ==== Sys2Proof/Machine/Codec.lean ====
section
/-! DEFINITION. The secure-area codec commands `SADEC` and `SAENC` (42_secure_area_codec.md). Both are written over a seed
table; the commands give them `SEED_TABLE`. -/

namespace Sys2Proof.Machine

/-- The 8-byte block at `off` as halves: the low word is right, the high word left (R32). -/
def blockAt (s : State) (off : Nat) : Block := ⟨memRead s (off + 4), memRead s off⟩

/-- A block's halves written back at `off` (R32, R80). -/
def writeBlockAt (off : Nat) (x : Block) (s : State) : State :=
  memWrite (off + 4) x.left (memWrite off x.right s)

/-- `XBUF(off, dir)`: one 8-byte block of the buffer transformed in place (R80). -/
def xbuf (kt : KeyTable) (dir : Direction) (off : Nat) (s : State) : State :=
  writeBlockAt off (transform kt dir (blockAt s off)) s

/-- The offsets of the 255 strides after the header block: 8, 16, ..., 0x7F8 (R83). -/
def strideOffsets : List Nat := (List.range 255).map fun k => 8 + 8 * k

/-- Every stride transformed with one table, ascending (R83). -/
@[irreducible] def xstrides (kt : KeyTable) (dir : Direction) (s : State) : State :=
  strideOffsets.foldl (fun s off => xbuf kt dir off s) s

/-- The header block, buffer offsets 0 to 7, holds these two words. -/
def headerIs (w0 w1 : Word) (s : State) : Bool :=
  memRead s 0 == w0 && memRead s 4 == w1

/-- The header block overwritten: `w0` at offset 0, `w1` at offset 4. -/
def writeHeader (w0 w1 : Word) (s : State) : State := writeBlockAt 0 ⟨w1, w0⟩ s

/-- `SADEC` steps 1 to 4 (R81): the header block after the two reverse transforms, the first with the "init1" table, the
second with the "init2" table. -/
def sadecHeader (seed : KeyTable) (s : State) : State :=
  xbuf (init2 (init1 seed s.gc)).kt .reverse 0 (xbuf (init1 seed s.gc).kt .reverse 0 s)

/-- `SADEC` steps 6 and 7 (R81): the sentinel written, every stride decrypted with the "init2" table. -/
def sadecStrides (seed : KeyTable) (s : State) : State :=
  xstrides (init2 (init1 seed s.gc)).kt .reverse (writeHeader sentinel sentinel s)

/-- `decrypt(buffer)` (R81), to its completion; the cipher state is lost with either code (R85). -/
@[irreducible] def sadec (seed : KeyTable) (s : State) : State :=
  if headerIs magic0 magic1 (sadecHeader seed s) then
    complete .ok (loseCipherState (sadecStrides seed (sadecHeader seed s)))
  else complete .decryptionMismatch (loseCipherState (sadecHeader seed s))

/-- `SAENC` steps b to g (R82): the strides with the "init2" table, then the magic pair transformed with the "init2" table
and with a fresh "init1" table. -/
def saencBody (seed : KeyTable) (s : State) : State :=
  xbuf (init1 seed s.gc).kt .forward 0
    (xbuf (init2 (init1 seed s.gc)).kt .forward 0
      (writeHeader magic0 magic1 (xstrides (init2 (init1 seed s.gc)).kt .forward s)))

/-- `encrypt(buffer)` (R82), to its completion. A failed precondition check has written nothing, so it loses nothing
(R85, C10). -/
@[irreducible] def saenc (seed : KeyTable) (s : State) : State :=
  if headerIs sentinel sentinel s then complete .ok (loseCipherState (saencBody seed s))
  else complete .alreadyEncryptedPrecondition s

/-- `SADEC` (R81). -/
def execSadec (s : State) : Host.Outcome State Fault Refusal :=
  .next (sadec seedTable s)

/-- `SAENC` (R82). -/
def execSaenc (s : State) : Host.Outcome State Fault Refusal :=
  .next (saenc seedTable s)

end Sys2Proof.Machine
end

