-- ==== Sys2Proof/Machine/Dispatch.lean ====
section
/-! DEFINITION. One arm per command: the meaning of each (R46). -/

namespace Sys2Proof.Machine

def exec (i : Instr) (s : State) : Host.Outcome State Fault Refusal :=
  match i with
  | .seed => Sys2Proof.Machine.execSeed s
  | .derive => Sys2Proof.Machine.execDerive s
  | .mutate => Sys2Proof.Machine.execMutate s
  | .mixstep => Sys2Proof.Machine.execMixstep s
  | .reshift => Sys2Proof.Machine.execReshift s
  | .init1 => Sys2Proof.Machine.execInit1 s
  | .init2 => Sys2Proof.Machine.execInit2 s
  | .init0 => Sys2Proof.Machine.execInit0 s
  | .lookup => Sys2Proof.Machine.execLookup s
  | .xform dir => Sys2Proof.Machine.execXform dir s
  | .sadec => Sys2Proof.Machine.execSadec s
  | .saenc => Sys2Proof.Machine.execSaenc s

end Sys2Proof.Machine
end

