-- ==== Sys2Proof/Machine/HostPort.lean ====
section
/-! DEFINITION. The host's side of the register space: what an access reads and writes, which accesses exist, and one move
of the host (10_state.md R18, R25, R26, 20_memory.md R35, 70_reset_and_hazards.md R105). -/

namespace Sys2Proof.Machine

/-- How many bytes an access moves. -/
def AccessWidth.bytes : AccessWidth → Nat
  | .w8 => 1
  | .w16 => 2
  | .w32 => 4
  | .w64 => 8

/-- The offset lies in the buffer window (R25). -/
def inBufWindow (off : Nat) : Bool := decide (0x3000 ≤ off ∧ off < 0x3800)

/-- The accesses the hardware has (R35): aligned 32-bit ones anywhere in the register space; aligned 8- and 16-bit ones in
the buffer window; the one 64-bit access of `BLK64` at 0x0010. -/
def accessListed (width : AccessWidth) (off : Nat) : Bool :=
  match width with
  | .w8 => inBufWindow off
  | .w16 => inBufWindow off && off % 2 == 0
  | .w32 => off % 4 == 0
  | .w64 => off == 0x0010

/-- What a 32-bit read returns (R25): `CMD` and the reserved offsets read 0. -/
def readWord (s : State) (off : Nat) : Word :=
  if h : 0x1000 ≤ off ∧ off < 0x2048 then s.kt.get ⟨(off - 0x1000) / 4, by omega⟩
  else if inBufWindow off then memRead s (off - 0x3000)
  else
    match off with
    | 0x0004 => statusWord s.status
    | 0x0008 => s.gc
    | 0x0010 => s.r
    | 0x0014 => s.l
    | 0x0018 => s.d.d0
    | 0x001C => s.d.d1
    | 0x0020 => s.d.d2
    | 0x0024 => s.salt0
    | 0x0028 => s.salt1
    | _ => 0

/-- What a listed read returns, in the low bits (R25, R35). The 8- and 16-bit ones are in the buffer window. -/
def readData (s : State) (width : AccessWidth) (off : Nat) : BitVec 64 :=
  match width with
  | .w8 => (bufByte s (off - 0x3000)).setWidth 64
  | .w16 => (bufByte s (off - 0x3000 + 1) ++ bufByte s (off - 0x3000)).setWidth 64
  | .w32 => (readWord s off).setWidth 64
  | .w64 => blk64 ⟨s.l, s.r⟩

/-- What a 32-bit write does (R25): a write to `CMD` starts a command (R18); `STATUS`, `SALT`, the key-table window and the
reserved offsets ignore writes (R19, R25, D28, U5). -/
def writeWord (off : Nat) (w : Word) (s : State) : State :=
  if inBufWindow off then memWrite (off - 0x3000) w s
  else
    match off with
    | 0x0000 => issue w s
    | 0x0008 => { s with gc := w }
    | 0x0010 => { s with r := w }
    | 0x0014 => { s with l := w }
    | 0x0018 => { s with d := { s.d with d0 := w } }
    | 0x001C => { s with d := { s.d with d1 := w } }
    | 0x0020 => { s with d := { s.d with d2 := w } }
    | _ => s

/-- What a listed write does (R25, R35); the data is the low bits. -/
def writeData (width : AccessWidth) (off : Nat) (v : BitVec 64) (s : State) : State :=
  match width with
  | .w8 => setBufByte (off - 0x3000) (v.extractLsb' 0 8) s
  | .w16 => setBufByte (off - 0x3000 + 1) (v.extractLsb' 8 8) (setBufByte (off - 0x3000) (v.extractLsb' 0 8) s)
  | .w32 => writeWord off (v.extractLsb' 0 32) s
  | .w64 => setBlock (blockOf64 v) s

/-- The one access the host may make while `BUSY = 1`: a read of `STATUS` (R26). -/
def isStatusRead : HostMove → Bool
  | .read .w32 off => off == 0x0004
  | _ => false

/-- One poll of `STATUS` while the core is idle (R49): with `DONE = 1` the wait is over and the host holds the `STATUS` it
read; with no command done it waits on (log 15). -/
def pollDone (s : State) : State :=
  if s.status.done then { s with hostData := (statusWord s.status).setWidth 64 }
  else { s with host := .awaitDone :: s.host }

/-- One move of the host on the state whose pending moves are the ones after it. It takes effect at once (R26). -/
def hostMove (m : HostMove) (s : State) : Host.Outcome State Fault Refusal :=
  match m with
  | .reset => .next (applyReset s)
  | .awaitDone => .next (pollDone s)
  | .read width off =>
    if s.status.busy && !isStatusRead (.read width off) then .refused .hostAccessWhileBusy
    else if accessListed width off then .next { s with hostData := readData s width off }
    else .refused .hostAccessNotListed
  | .write width off v =>
    if s.status.busy then .refused .hostAccessWhileBusy
    else if accessListed width off then .next (writeData width off v s)
    else .refused .hostAccessNotListed

end Sys2Proof.Machine
end

