-- ==== Sys2Proof/Decode.lean ====
section
/-! DEFINITION. Decoding a command word and encoding a command (30_encoding.md R45 to R48). A command is one 32-bit word
written to `CMD`; as bytes it is little-endian, like every word of the register space (R35). -/

namespace Sys2Proof

/-- Why a word is no command (R48); the core reports all of them alike, as `IllegalCommand` (R94). -/
inductive DecodeError where
  /-- Fewer than four bytes: not a whole word. -/
  | truncated (bytes : Nat)
  /-- The `ZERO` field, bits 31:9, is not 0. -/
  | zeroFieldNotClear
  /-- `DIR = 1` and `OP` is not that of `XFORM`. -/
  | directionWithoutXform
  /-- `OP` is no operation code of R46. -/
  | unassignedOperation (op : BitVec 8)
deriving DecidableEq, Repr

/-- The fields of a word (R45). -/
def fieldsOfWord (w : Word) : CommandFields where
  op := w.extractLsb' 0 8
  dir := w.extractLsb' 8 1
  zero := w.extractLsb' 9 23

/-- The word with these fields (R45). -/
def wordOfFields (f : CommandFields) : Word :=
  f.zero ++ f.dir ++ f.op

/-- `DIR = 1` is forward (R47). -/
def directionOfBit (b : BitVec 1) : Direction :=
  if b = 1 then .forward else .reverse

/-- `DIR` of a direction (R47). -/
def bitOfDirection : Direction → BitVec 1
  | .reverse => 0
  | .forward => 1

/-- The command an operation code selects (R46); `dir` matters to `XFORM` alone. -/
def decodeOperation (op : BitVec 8) (dir : BitVec 1) : Except DecodeError Instr :=
  match op.toNat with
  | 0x01 => .ok .seed
  | 0x02 => .ok .derive
  | 0x03 => .ok .mutate
  | 0x04 => .ok .mixstep
  | 0x05 => .ok .reshift
  | 0x08 => .ok .init1
  | 0x09 => .ok .init2
  | 0x0A => .ok .init0
  | 0x10 => .ok .lookup
  | 0x11 => .ok (.xform (directionOfBit dir))
  | 0x20 => .ok .sadec
  | 0x21 => .ok .saenc
  | _ => .error (.unassignedOperation op)

/-- Decode the fields of a word (R45, R46, R48). -/
def decodeFields (f : CommandFields) : Except DecodeError Instr :=
  if f.zero ≠ 0 then .error .zeroFieldNotClear
  else if f.dir ≠ 0 ∧ f.op ≠ 0x11 then .error .directionWithoutXform
  else decodeOperation f.op f.dir

/-- Decode a command word: total, an illegal word is named and refused (R46, R48). -/
def decodeWord (w : Word) : Except DecodeError Instr :=
  decodeFields (fieldsOfWord w)

/-- The word of four bytes, the first at the lowest address and least significant (R35). -/
def commandWordOfBytes (b0 b1 b2 b3 : Byte) : Word :=
  b3 ++ b2 ++ b1 ++ b0

/-- Decode the command at the head of a list of bytes; the bytes after it are returned. -/
def decode : List Byte → Except DecodeError (Instr × List Byte)
  | b0 :: b1 :: b2 :: b3 :: rest =>
    match decodeWord (commandWordOfBytes b0 b1 b2 b3) with
    | .ok i => .ok (i, rest)
    | .error e => .error e
  | short => .error (.truncated short.length)

/-- The fields of a command (R46, R47). -/
def encodeFields : Instr → CommandFields
  | .seed => ⟨0x01, 0, 0⟩
  | .derive => ⟨0x02, 0, 0⟩
  | .mutate => ⟨0x03, 0, 0⟩
  | .mixstep => ⟨0x04, 0, 0⟩
  | .reshift => ⟨0x05, 0, 0⟩
  | .init1 => ⟨0x08, 0, 0⟩
  | .init2 => ⟨0x09, 0, 0⟩
  | .init0 => ⟨0x0A, 0, 0⟩
  | .lookup => ⟨0x10, 0, 0⟩
  | .xform dir => ⟨0x11, bitOfDirection dir, 0⟩
  | .sadec => ⟨0x20, 0, 0⟩
  | .saenc => ⟨0x21, 0, 0⟩

/-- The command word of a command (R46). -/
def encode (i : Instr) : Word :=
  wordOfFields (encodeFields i)

/-- The bytes of a word, least significant first. -/
def bytesOfCommandWord (w : Word) : List Byte :=
  [w.extractLsb' 0 8, w.extractLsb' 8 8, w.extractLsb' 16 8, w.extractLsb' 24 8]

/-- The command word as the four bytes of register space it is written to. -/
def encodeBytes (i : Instr) : List Byte :=
  bytesOfCommandWord (encode i)

/-- The word a table row's `nbits` low bits of `w` make; the bits above are 0. -/
def tableWord (nbits w : Nat) : Word :=
  BitVec.ofNat 32 (w % 2 ^ nbits)

/-- What the decoder reads from a command whose bits are `w`, numbered as spec/opcode_table.json numbers them. -/
def decodeTableWord (nbits w : Nat) : Option Instr :=
  match decode (bytesOfCommandWord (tableWord nbits w)) with
  | .ok (i, _) => some i
  | .error _ => none

end Sys2Proof
end

