-- ==== Sys2Proof/Machine/Sequencer.lean ====
section
/-! DEFINITION. Which agent moves next, and the sequencer's reading of the command word (10_state.md R18, R26,
20_memory.md R39, R41, 60_exceptions.md R94). -/

namespace Sys2Proof.Machine

/-- Who takes the next step. -/
inductive Mover where
  /-- Nobody: the core is idle and the host has nothing to do (R24). -/
  | nobody
  /-- The sequencer runs the command in `CMDREG` to completion. -/
  | sequencer
  /-- The host makes this move; these are pending after it. -/
  | host (m : HostMove) (rest : List HostMove)
deriving DecidableEq, Repr

/-- Who moves next (R26, R39, log 2). While `BUSY = 1` the sequencer moves when the host has nothing pending or waits for
`DONE`; a pending read of `STATUS`, a reset, or an access the host must not make, comes first. -/
def nextMover (s : State) : Mover :=
  match s.host with
  | [] => if s.status.busy then .sequencer else .nobody
  | m :: rest => if s.status.busy && m == .awaitDone then .sequencer else .host m rest

/-- The command the sequencer runs: the word most recently written to `CMD` (R41), decoded. -/
def currentCommand (s : State) : Except DecodeError Instr :=
  decodeWord s.cmdReg

/-- An illegal command word: only `STATUS` changes (R48, R94). -/
def execIllegal (s : State) : Host.Outcome State Fault Refusal :=
  .next (complete .illegalCommand s)

/-- The host waits for `DONE`, if it has anything pending at all: the sequencer moves next while `BUSY = 1`. -/
def hostWaiting (pending : List HostMove) : List HostMove :=
  match pending with
  | [] => []
  | m :: rest => if m == .awaitDone then m :: rest else .awaitDone :: m :: rest

end Sys2Proof.Machine
end

