-- ==== Sys2Proof/Machine/Step.lean ====
section
/-! DEFINITION. One step of the machine: the agent whose turn it is moves (R26, R39). The sequencer's move is one whole
command, from the word in `CMDREG` to its completion (R21, D8, log 1). -/

namespace Sys2Proof.Machine

/-- One step. An idle core with no host move pending stays as it is (R24). -/
def step (s : State) : Host.Outcome State Fault Refusal :=
  match nextMover s with
  | .nobody => .next s
  | .host m rest => hostMove m { s with host := rest }
  | .sequencer =>
    match currentCommand s with
    | .ok i => exec i s
    | .error _ => execIllegal s

/-- `s` with a command word written to `CMD` and the host waiting for it, so that the next step runs that command (R18,
log 14). -/
def State.withFetchWord (s : State) (nbits w : Nat) : State :=
  { issue (tableWord nbits w) s with host := hostWaiting s.host }

end Sys2Proof.Machine
end

