-- ==== Sys2Proof/Machine/Script.lean ====
section
/-! DEFINITION. The script statements and pseudo-commands of 30_encoding.md R49 and R50 as moves of the host. `EXPECT` is no
host action. -/

namespace Sys2Proof.Machine

/-- `<MNEMONIC>`: the command word to `CMD`, then reads of `STATUS` until `DONE = 1` (R49). -/
def runCommand (i : Instr) : List HostMove :=
  [.write .w32 0x0000 ((encode i).setWidth 64), .awaitDone]

/-- `WR GC, <value>` (R49). -/
def wrGc (v : Word) : List HostMove := [.write .w32 0x0008 (v.setWidth 64)]
/-- `WR L, <value>`. -/
def wrL (v : Word) : List HostMove := [.write .w32 0x0014 (v.setWidth 64)]
/-- `WR R, <value>`. -/
def wrR (v : Word) : List HostMove := [.write .w32 0x0010 (v.setWidth 64)]
/-- `WR BLK64, <value>`. -/
def wrBlk64 (v : BitVec 64) : List HostMove := [.write .w64 0x0010 v]
/-- `WR D<k>, <value>`. -/
def wrD (k : Fin 3) (v : Word) : List HostMove := [.write .w32 (0x0018 + 4 * k.val) (v.setWidth 64)]
/-- `WRB <off>, <b0> <b1> ...`: the bytes one by one. -/
def wrBytes : Nat → List Byte → List HostMove
  | _, [] => []
  | off, b :: rest => .write .w8 (0x3000 + off) (b.setWidth 64) :: wrBytes (off + 1) rest
/-- `RD <reg>`, by the register's offset. -/
def rdReg (off : Nat) : List HostMove := [.read .w32 off]
/-- `RD BLK64`. -/
def rdBlk64 : List HostMove := [.read .w64 0x0010]
/-- `RDK <i>`. -/
def rdTable (i : Fin 1042) : List HostMove := [.read .w32 (0x1000 + 4 * i.val)]
/-- `RDB <off>, <n>`. -/
def rdBytes (off n : Nat) : List HostMove := (List.range n).map fun k => .read .w8 (0x3000 + off + k)

/-- `ENC` is `XFORM.F` (R50). -/
def pseudoEnc : List HostMove := runCommand (.xform .forward)
/-- `DEC` is `XFORM.R` (R50). -/
def pseudoDec : List HostMove := runCommand (.xform .reverse)
/-- `ENC64 <v>` (R50). -/
def pseudoEnc64 (v : BitVec 64) : List HostMove := wrBlk64 v ++ pseudoEnc
/-- `DEC64 <v>` (R50). -/
def pseudoDec64 (v : BitVec 64) : List HostMove := wrBlk64 v ++ pseudoDec
/-- `MIXGC` is `DERIVE`, `MIXSTEP`, `MIXSTEP` (R50). -/
def pseudoMixgc : List HostMove := runCommand .derive ++ runCommand .mixstep ++ runCommand .mixstep

end Sys2Proof.Machine
end

