-- ==== Sys2Proof/Safety.lean ====
section
/-! DEFINITION. What counts as a legal state and as a safe step, in the terms the claims use. -/

namespace Sys2Proof.Machine

/-- A legal `STATUS` (R18, R19, R22): never busy and done at once; a result code other than 0 only with `DONE = 1`, and
only one the core produces. -/
abbrev Status.legal (st : Status) : Prop :=
  (st.busy = true → st.done = false) ∧ (st.done = false → st.result = 0) ∧
    (st.result = 0 ∨ st.result = 2 ∨ st.result = 3 ∨ st.result = 4)

/-- The invariant every step keeps: a legal `STATUS`, and `BUF` in its canonical form with every offset below 0x800. -/
abbrev State.legal (s : State) : Prop :=
  s.status.legal ∧ s.buf.wf

/-- The step went on: neither a fault nor a refusal. -/
def goesOn (o : Host.Outcome State Fault Refusal) : Prop :=
  ∃ t, o = .next t

/-- `m` is a move the host has in a state: an access the hardware lists, while idle; a read of `STATUS`, a wait or a reset
at any time (R25, R26, R35, R105). -/
def hostMayMake (s : State) : HostMove → Bool
  | .reset => true
  | .awaitDone => true
  | .read width off => accessListed width off && (!s.status.busy || isStatusRead (.read width off))
  | .write width off _ => accessListed width off && !s.status.busy

end Sys2Proof.Machine
end

