-- ==== Sys2Proof/Certificates/Slice0/Obligations.lean ====
section
/-! DEFINITION. The statements about the machine, one per `Obligations.<Name>`. The helpers before them say in the spec's own
terms what the rules name (a table word by its number, a byte of a word, the lookup formula), apart from the model's own
functions. A free value is never fixed by a statement: each holds whatever `Config` gives. -/

namespace Sys2Proof.Statements

open Sys2Proof Sys2Proof.Machine

/-- `KT[i]`, by its number (R11). -/
def ktWord (kt : KeyTable) (i : Nat) : Word := if h : i < 1042 then kt.get ⟨i, h⟩ else 0

/-- `byte m` of a word, byte 0 the least significant (00_scope.md section 5). -/
def byteOf (v : Word) (m : Nat) : Nat := v.toNat / 2 ^ (8 * m) % 256

/-- The lookup formula of R70: `d + (c XOR (b + a))`, bytes MSB first, regions at 18, 18+256, 18+512, 18+768. -/
def lookupFormula (kt : KeyTable) (v : Word) : Word :=
  ktWord kt (18 + 768 + byteOf v 0) +
    (ktWord kt (18 + 512 + byteOf v 1) ^^^ (ktWord kt (18 + 256 + byteOf v 2) + ktWord kt (18 + byteOf v 3)))

/-- `TB[n]`, byte `n` of the 12-byte view of the triple (R33). -/
def tripleByteOf (d : Triple) (n : Nat) : Nat :=
  byteOf (if n / 4 = 0 then d.d0 else if n / 4 = 1 then d.d1 else d.d2) (n % 4)

/-- `STATUS` after a command that completed with this code (R97). -/
def completedWith (code : BitVec 4) : Status := ⟨false, true, code⟩

/-- The sequencer is the one to move: a command is running and the host has nothing pending or waits for `DONE`. -/
def sequencerToMove (s : State) : Prop :=
  s.status.busy = true ∧ (s.host = [] ∨ ∃ rest, s.host = .awaitDone :: rest)

/-- `k` steps, one after the other; a refusal ends them. -/
def runSteps : Nat → State → Host.Outcome State Fault Refusal
  | 0, s => .next s
  | k + 1, s =>
    match step s with
    | .next t => runSteps k t
    | .fault r => .fault r
    | .refused r => .refused r

/-- The value of `n` bytes of the buffer from `o` on, little-endian (R31). -/
def bufferValue (s : State) (o n : Nat) : Nat :=
  ((List.range n).map fun k => 2 ^ (8 * k) * (bufByte s (o + k)).toNat).sum

/-- The bytes an access moves. -/
def widthBytes : AccessWidth → Nat
  | .w8 => 1
  | .w16 => 2
  | .w32 => 4
  | .w64 => 8

/-- An idle core answers a pending 32-bit read of `off` with `value`, and nothing else changes. -/
def ReadReturns (off : Nat) (value : State → Word) : Prop :=
  ∀ (s : State) (rest : List HostMove), s.status.busy = false → s.host = .read .w32 off :: rest →
    step s = .next { s with host := rest, hostData := (value s).setWidth 64 }

/-- An idle core takes a pending 32-bit write of `off` by `effect`, and nothing else changes. -/
def WriteDoes (off : Nat) (effect : Word → State → State) : Prop :=
  ∀ (s : State) (rest : List HostMove) (x : BitVec 64), s.status.busy = false →
    s.host = .write .w32 off x :: rest → step s = .next (effect (x.setWidth 32) { s with host := rest })

/-- The accesses R35 lists. -/
def listedAccess (width : AccessWidth) (off : Nat) : Prop :=
  (width = .w32 ∧ off % 4 = 0) ∨ (width = .w8 ∧ 0x3000 ≤ off ∧ off < 0x3800) ∨
    (width = .w16 ∧ off % 2 = 0 ∧ 0x3000 ≤ off ∧ off < 0x3800) ∨ (width = .w64 ∧ off = 0x0010)

/-- The rows of the opcode map (R46): match, mask, and the command, given the direction bit 8 says. -/
def opcodeRows : List (Word × Word × (Direction → Instr)) :=
  [(0x00000001, 0xFFFFFFFF, fun _ => .seed), (0x00000002, 0xFFFFFFFF, fun _ => .derive),
   (0x00000003, 0xFFFFFFFF, fun _ => .mutate), (0x00000004, 0xFFFFFFFF, fun _ => .mixstep),
   (0x00000005, 0xFFFFFFFF, fun _ => .reshift), (0x00000008, 0xFFFFFFFF, fun _ => .init1),
   (0x00000009, 0xFFFFFFFF, fun _ => .init2), (0x0000000A, 0xFFFFFFFF, fun _ => .init0),
   (0x00000010, 0xFFFFFFFF, fun _ => .lookup), (0x00000011, 0xFFFFFEFF, .xform),
   (0x00000020, 0xFFFFFFFF, fun _ => .sadec), (0x00000021, 0xFFFFFFFF, fun _ => .saenc)]

end Sys2Proof.Statements

section

open Sys2Proof Sys2Proof.Machine Sys2Proof.Statements

/-! ### Encoding -/

/-- The thirteen words of R46, written out, decode to their commands (30_encoding.md section 2). -/
def Obligations.OpcodeMapWordsDecode : Prop :=
  decodeWord 0x00000001 = .ok .seed ∧ decodeWord 0x00000002 = .ok .derive ∧
  decodeWord 0x00000003 = .ok .mutate ∧ decodeWord 0x00000004 = .ok .mixstep ∧
  decodeWord 0x00000005 = .ok .reshift ∧ decodeWord 0x00000008 = .ok .init1 ∧
  decodeWord 0x00000009 = .ok .init2 ∧ decodeWord 0x0000000A = .ok .init0 ∧
  decodeWord 0x00000010 = .ok .lookup ∧ decodeWord 0x00000011 = .ok (.xform .reverse) ∧
  decodeWord 0x00000111 = .ok (.xform .forward) ∧ decodeWord 0x00000020 = .ok .sadec ∧
  decodeWord 0x00000021 = .ok .saenc

/-- A word selects the row whose mask and match it fits, `DIR` is bit 8 and 1 is forward, and no word fits two rows
(R46, R47). -/
def Obligations.OpcodeRowsSelectByMaskAndMatch : Prop :=
  ∀ w : Word,
    (∀ row ∈ opcodeRows, w &&& row.2.1 = row.1 ↔
      decodeWord w = .ok (row.2.2 (if w.getLsbD 8 then .forward else .reverse))) ∧
    ∀ row ∈ opcodeRows, ∀ row' ∈ opcodeRows, w &&& row.2.1 = row.1 → w &&& row'.2.1 = row'.1 → row.1 = row'.1

/-- The illegal words are the ones R48 lists, and one that is issued completes with code 4 and changes nothing else
(R48, R94). -/
def Obligations.IllegalWordsCompleteWithIllegalCommand : Prop :=
  ∀ w : Word,
    ((∃ e, decodeWord w = .error e) ↔
      (w.toNat % 256 = 0x00 ∨ w.toNat % 256 = 0x06 ∨ w.toNat % 256 = 0x07 ∨
        (0x0B ≤ w.toNat % 256 ∧ w.toNat % 256 ≤ 0x0F) ∨ (0x12 ≤ w.toNat % 256 ∧ w.toNat % 256 ≤ 0x1F) ∨
        0x22 ≤ w.toNat % 256) ∨
      w.toNat / 2 ^ 9 ≠ 0 ∨ (w.toNat / 2 ^ 8 % 2 = 1 ∧ w.toNat % 256 ≠ 0x11)) ∧
    ∀ s : State, sequencerToMove s → s.cmdReg = w → (∃ e, decodeWord w = .error e) →
      step s = .next { s with status := completedWith 4 }

/-- Decoding an encoded command gives it back, with the bytes after it; a word that decodes is the encoding of what it
decodes to; so are the four bytes the decoder consumes (30_encoding.md sections 1 and 2). -/
def Obligations.DecodeAndEncodeAgree : Prop :=
  (∀ (i : Instr) (rest : List Byte), decode (encodeBytes i ++ rest) = .ok (i, rest)) ∧
  (∀ (w : Word) (i : Instr), decodeWord w = .ok i → encode i = w) ∧
  (∀ (bs rest : List Byte) (i : Instr), decode bs = .ok (i, rest) → bs = encodeBytes i ++ rest)

/-! ### Data formats -/

/-- The shifts, the byte swap and the wrapping sum as numbers (00_scope.md section 5). -/
def Obligations.ArithmeticPrimitivesWrap : Prop :=
  ∀ a b : Word, (a + b).toNat = (a.toNat + b.toNat) % 2 ^ 32 ∧ (shl1 a).toNat = 2 * a.toNat % 2 ^ 32 ∧
    (shr1 a).toNat = a.toNat / 2 ∧
    (bswap32 a).toNat = 2 ^ 24 * byteOf a 0 + 2 ^ 16 * byteOf a 1 + 2 ^ 8 * byteOf a 2 + byteOf a 3

/-- `P` and `S` are views of `KT`: `P[i] = KT[i]`, `S[k][j] = KT[18 + 256*k + j]`; a write of one table word is a write of
the view that names it (R11). -/
def Obligations.RoundAndSubstWordsAreViewsOfTheTable : Prop :=
  ∀ kt : KeyTable,
    (∀ i : Fin 18, roundWord kt i = ktWord kt i.val) ∧
    (∀ (k : Fin 4) (j : Byte), substWord kt k j = ktWord kt (18 + 256 * k.val + j.toNat)) ∧
    ∀ (i : Fin 1042) (v : Word), (∀ p : Fin 18, roundWord (kt.set i.val v) p = if p.val = i.val then v else roundWord kt p) ∧
      ∀ (k : Fin 4) (j : Byte), substWord (kt.set i.val v) k j =
        if 18 + 256 * k.val + j.toNat = i.val then v else substWord kt k j

/-- `TB[4*k + m] = (D[k] >> (8*m)) AND 0xFF` (20_memory.md section 2). -/
def Obligations.TripleBytesAreLittleEndian : Prop :=
  ∀ (d : Triple) (n : Fin 12), (tripleByte d n).toNat = tripleByteOf d n.val

/-- `MemRead` and `MemWrite` are little-endian, and `MemWrite` stores to its four bytes alone (20_memory.md section 2). -/
def Obligations.BufferWordsAreLittleEndian : Prop :=
  ∀ (s : State) (off : Nat) (v : Word), off + 4 ≤ 0x800 →
    (memRead s off).toNat = (bufByte s off).toNat + 2 ^ 8 * (bufByte s (off + 1)).toNat +
      2 ^ 16 * (bufByte s (off + 2)).toNat + 2 ^ 24 * (bufByte s (off + 3)).toNat ∧
    (∀ m : Nat, m < 4 → (bufByte (memWrite off v s) (off + m)).toNat = byteOf v m) ∧
    (∀ o : Nat, o < off ∨ off + 4 ≤ o → bufByte (memWrite off v s) o = bufByte s o)

/-- An 8-byte block is one little-endian 64-bit unit whose high half is left, read and written alike (R32). -/
def Obligations.BlockIsLittleEndianWithLeftHigh : Prop :=
  ∀ (s : State) (off : Nat) (x : Block), off + 8 ≤ 0x800 → off % 8 = 0 →
    (blockAt s off).right = memRead s off ∧ (blockAt s off).left = memRead s (off + 4) ∧
    2 ^ 32 * (blockAt s off).left.toNat + (blockAt s off).right.toNat = bufferValue s off 8 ∧
    memRead (writeBlockAt off x s) off = x.right ∧ memRead (writeBlockAt off x s) (off + 4) = x.left

/-- `STATUS` as a word: `BUSY` bit 0, `DONE` bit 1, `RESULT` bits 7:4, all other bits 0 (10_state.md section 4). -/
def Obligations.StatusWordLayout : Prop :=
  ∀ st : Status, (statusWord st).toNat = st.busy.toNat + 2 * st.done.toNat + 16 * st.result.toNat

/-! ### Reset, steps and the host -/

/-- After reset `STATUS` is 0, no byte of `BUF` is written and the core waits; a reset from any state, a command running or
not, leaves `STATUS` and `BUF` so (10_state.md section 9, 70_reset_and_hazards.md section 1). -/
def Obligations.ResetLeavesTheCoreIdle : Prop :=
  (State.reset.status = ⟨false, false, 0⟩ ∧ statusWord State.reset.status = 0 ∧ State.reset.buf = [] ∧
    step State.reset = .next State.reset) ∧
  ∀ (s : State) (rest : List HostMove), s.host = .reset :: rest →
    ∃ t, step s = .next t ∧ t.status = ⟨false, false, 0⟩ ∧ t.buf = [] ∧ t.host = rest

/-- When a command is running and the host leaves the turn to it, a step is the meaning of the decoded command word
(10_state.md section 4, 20_memory.md section 6). -/
def Obligations.StepRunsTheDecodedCommand : Prop :=
  ∀ (s : State) (i : Instr), sequencerToMove s → decodeWord s.cmdReg = .ok i → step s = exec i s

/-- The state with a command word written for it runs that command next, and differs from the state only in `CMDREG`,
`STATUS` and the host's wait (the model's `withFetchWord`, log 14). -/
def Obligations.FetchWordRunsTheCommand : Prop :=
  ∀ (s : State) (i : Instr),
    step (s.withFetchWord 32 (encode i).toNat) = exec i (s.withFetchWord 32 (encode i).toNat) ∧
    s.withFetchWord 32 (encode i).toNat =
      { s with cmdReg := encode i, status := ⟨true, false, 0⟩, host := (s.withFetchWord 32 (encode i).toNat).host }

/-- A write to `CMD` while idle starts a command: `CMDREG`, `BUSY`, `DONE`, `RESULT`, and nothing else; a read of `CMD`
returns 0 (R18). -/
def Obligations.CmdWriteStartsTheCommand : Prop :=
  WriteDoes 0x0000 (fun w s => { s with cmdReg := w, status := ⟨true, false, 0⟩ }) ∧ ReadReturns 0x0000 (fun _ => 0)

/-- While `BUSY = 1` the host may read `STATUS` and nothing else: any other access has unspecified effect, and is refused by
the model's choice (log 12). While `BUSY = 0` every listed access takes effect at once, in the order pending
(10_state.md section 7). -/
def Obligations.HostOnlyReadsStatusWhileBusy : Prop :=
  (∀ (s : State) (rest : List HostMove), s.status.busy = true → s.host = .read .w32 0x0004 :: rest →
    step s = .next { s with host := rest, hostData := (statusWord s.status).setWidth 64 }) ∧
  (∀ (s : State) (width : AccessWidth) (off : Nat) (rest : List HostMove), s.status.busy = true →
    s.host = .read width off :: rest → ¬(width = .w32 ∧ off = 0x0004) → step s = .refused .hostAccessWhileBusy) ∧
  (∀ (s : State) (width : AccessWidth) (off : Nat) (x : BitVec 64) (rest : List HostMove), s.status.busy = true →
    s.host = .write width off x :: rest → step s = .refused .hostAccessWhileBusy) ∧
  (∀ (s : State) (width : AccessWidth) (off : Nat) (rest : List HostMove), s.status.busy = false →
    s.host = .read width off :: rest → listedAccess width off → ∃ t, step s = .next t ∧ t.host = rest) ∧
  (∀ (s : State) (width : AccessWidth) (off : Nat) (x : BitVec 64) (rest : List HostMove), s.status.busy = false →
    s.host = .write width off x :: rest → listedAccess width off → ∃ t, step s = .next t ∧ t.host = rest)

/-- The register map: what each offset reads, and what a write to it does, with the buffer window byte by byte too (R25). -/
def Obligations.HostRegisterMap : Prop :=
  (ReadReturns 0x0000 (fun _ => 0) ∧ ReadReturns 0x0004 (fun s => statusWord s.status) ∧
    ReadReturns 0x0008 (fun s => s.gc) ∧ ReadReturns 0x000C (fun _ => 0) ∧ ReadReturns 0x0010 (fun s => s.r) ∧
    ReadReturns 0x0014 (fun s => s.l) ∧ ReadReturns 0x0018 (fun s => s.d.d0) ∧ ReadReturns 0x001C (fun s => s.d.d1) ∧
    ReadReturns 0x0020 (fun s => s.d.d2) ∧ ReadReturns 0x0024 (fun s => s.salt0) ∧
    ReadReturns 0x0028 (fun s => s.salt1) ∧
    (∀ i : Nat, i < 1042 → ReadReturns (0x1000 + 4 * i) (fun s => ktWord s.kt i)) ∧
    (∀ o : Nat, o < 0x800 → o % 4 = 0 → ReadReturns (0x3000 + o) (fun s => memRead s o)) ∧
    (∀ off : Nat, off % 4 = 0 → (0x002C ≤ off ∧ off ≤ 0x0FFF) ∨ (0x2048 ≤ off ∧ off ≤ 0x2FFF) ∨ 0x3800 ≤ off →
      ReadReturns off (fun _ => 0))) ∧
  (WriteDoes 0x0000 (fun w s => { s with cmdReg := w, status := ⟨true, false, 0⟩ }) ∧
    WriteDoes 0x0008 (fun w s => { s with gc := w }) ∧ WriteDoes 0x0010 (fun w s => { s with r := w }) ∧
    WriteDoes 0x0014 (fun w s => { s with l := w }) ∧ WriteDoes 0x0018 (fun w s => { s with d := ⟨w, s.d.d1, s.d.d2⟩ }) ∧
    WriteDoes 0x001C (fun w s => { s with d := ⟨s.d.d0, w, s.d.d2⟩ }) ∧
    WriteDoes 0x0020 (fun w s => { s with d := ⟨s.d.d0, s.d.d1, w⟩ }) ∧
    (∀ o : Nat, o < 0x800 → o % 4 = 0 → WriteDoes (0x3000 + o) (fun w s => memWrite o w s)) ∧
    (∀ off : Nat, off % 4 = 0 → off = 0x0004 ∨ off = 0x000C ∨ (0x0024 ≤ off ∧ off ≤ 0x2FFF) ∨ 0x3800 ≤ off →
      WriteDoes off (fun _ s => s))) ∧
  (∀ (s : State) (o : Nat) (rest : List HostMove), o < 0x800 → s.status.busy = false →
    s.host = .read .w8 (0x3000 + o) :: rest →
    step s = .next { s with host := rest, hostData := (bufByte s o).setWidth 64 }) ∧
  (∀ (s : State) (o : Nat) (x : BitVec 64) (rest : List HostMove), o < 0x800 → s.status.busy = false →
    s.host = .write .w8 (0x3000 + o) x :: rest →
    step s = .next (setBufByte o (x.setWidth 8) { s with host := rest }))

/-- The widths an idle core takes: the buffer window in 1, 2 or 4 bytes, naturally aligned and little-endian, with `BLK64`
in 8; an access R35 does not list is unspecified, and refused by the model's choice, log 12 (20_memory.md section 3). -/
def Obligations.HostAccessWidths : Prop :=
  (∀ (s : State) (width : AccessWidth) (o : Nat) (rest : List HostMove), s.status.busy = false → width ≠ .w64 →
    o < 0x800 → o % widthBytes width = 0 → s.host = .read width (0x3000 + o) :: rest →
    ∃ t, step s = .next t ∧ t.hostData.toNat = bufferValue s o (widthBytes width) ∧
      t = { s with host := rest, hostData := t.hostData }) ∧
  (∀ (s : State) (width : AccessWidth) (o : Nat) (x : BitVec 64) (rest : List HostMove), s.status.busy = false →
    width ≠ .w64 → o < 0x800 → o % widthBytes width = 0 → s.host = .write width (0x3000 + o) x :: rest →
    ∃ t, step s = .next t ∧
      (∀ k : Nat, k < widthBytes width → (bufByte t (o + k)).toNat = x.toNat / 2 ^ (8 * k) % 256) ∧
      (∀ p : Nat, p < o ∨ o + widthBytes width ≤ p → bufByte t p = bufByte s p) ∧
      t = { s with host := rest, buf := t.buf }) ∧
  (∀ (s : State) (rest : List HostMove), s.status.busy = false → s.host = .read .w64 0x0010 :: rest →
    step s = .next { s with host := rest, hostData := s.l ++ s.r }) ∧
  (∀ (s : State) (x : BitVec 64) (rest : List HostMove), s.status.busy = false → s.host = .write .w64 0x0010 x :: rest →
    step s = .next { s with host := rest, l := x.extractLsb' 32 32, r := x.extractLsb' 0 32 }) ∧
  (∀ (s : State) (width : AccessWidth) (off : Nat) (rest : List HostMove), s.status.busy = false →
    s.host = .read width off :: rest → ¬listedAccess width off → step s = .refused .hostAccessNotListed) ∧
  (∀ (s : State) (width : AccessWidth) (off : Nat) (x : BitVec 64) (rest : List HostMove), s.status.busy = false →
    s.host = .write width off x :: rest → ¬listedAccess width off → step s = .refused .hostAccessNotListed)

/-- `BLK64` is `{L, R}` and no storage of its own: a write of it writes both halves, a write of `L` its high half only; `SEED`,
`DERIVE` and `RESHIFT` preserve both (10_state.md section 3). -/
def Obligations.Blk64AliasesLAndR : Prop :=
  (∀ (s : State) (x : BitVec 64) (rest : List HostMove), s.status.busy = false →
    s.host = .write .w64 0x0010 x :: .read .w64 0x0010 :: rest →
    ∃ t, runSteps 2 s = .next t ∧
      t = { s with l := x.extractLsb' 32 32, r := x.extractLsb' 0 32, host := rest, hostData := x }) ∧
  (∀ (s : State) (x : BitVec 64) (rest : List HostMove), s.status.busy = false →
    s.host = .write .w32 0x0014 x :: .read .w64 0x0010 :: rest →
    ∃ t, runSteps 2 s = .next t ∧
      t = { s with l := x.setWidth 32, host := rest, hostData := x.setWidth 32 ++ s.r }) ∧
  (∀ (s : State) (i : Instr), i = .seed ∨ i = .derive ∨ i = .reshift →
    ∃ t, exec i s = .next t ∧ t.l = s.l ∧ t.r = s.r)

/-- A step goes on exactly when it is not a move the host does not have: nothing the core itself does stops it
(10_state.md section 7, 20_memory.md section 3, 70_reset_and_hazards.md section 4). That a busy or an unlisted access does not
go on is the model's choice, log 12: the spec leaves its effect unspecified. That an idle core with nothing pending, or with a
wait for a `DONE` that never comes, steps to itself is the model's choice too, log 15. -/
def Obligations.StepGoesOnUnlessTheHostBreaksProtocol : Prop :=
  ∀ s : State, (∃ t, step s = .next t) ↔ ∀ m rest, nextMover s = .host m rest → hostMayMake s m = true

/-- No move of the host but a reset writes the key table, the salt words or (but for a `CMD` write) `STATUS` and `CMDREG`
(10_state.md sections 2, 3, 4 and 7). -/
def Obligations.HostNeverWritesTableSaltOrStatus : Prop :=
  ∀ (s t : State) (m : HostMove) (rest : List HostMove), nextMover s = .host m rest → m ≠ .reset → step s = .next t →
    t.kt = s.kt ∧ t.salt0 = s.salt0 ∧ t.salt1 = s.salt1 ∧ t.draws = s.draws ∧ t.resetDraw = s.resetDraw ∧
    ((∀ x, m ≠ .write .w32 0x0000 x) → t.status = s.status ∧ t.cmdReg = s.cmdReg)

/-- The script statement of a command, from an idle core, runs it and leaves the host with the `STATUS` it polled
(30_encoding.md section 5). -/
def Obligations.CommandStatementRunsToDone : Prop :=
  ∀ (s : State) (i : Instr) (rest : List HostMove), s.status.busy = false → s.host = runCommand i ++ rest →
    ∃ a t, exec i { s with cmdReg := encode i, status := ⟨true, false, 0⟩, host := .awaitDone :: rest } = .next a ∧
      a.status.done = true ∧ runSteps 3 s = .next t ∧
      t = { a with host := rest, hostData := (statusWord a.status).setWidth 64 }

/-- The script `SEED`, `MIXGC` leaves the table and the triple `INIT1` leaves (30_encoding.md section 5). -/
def Obligations.ScriptSeedMixgcLeavesWhatInit1Leaves : Prop :=
  ∀ s : State, s.status.busy = false →
    ∃ t u, runSteps 12 { s with host := runCommand .seed ++ pseudoMixgc } = .next t ∧
      runSteps 3 { s with host := runCommand .init1 } = .next u ∧
      t.kt = u.kt ∧ t.d = u.d ∧ t.host = [] ∧ u.host = [] ∧ t.status = u.status

/-! ### The round processor -/

/-- `LOOKUP`: `L` becomes `F(L)` by the lookup formula, `R` and everything else stay, and a second one computes
`F(F(L))` (R71). -/
def Obligations.LookupWritesTheFormula : Prop :=
  decodeWord 0x00000010 = .ok .lookup ∧
  ∀ s : State, exec .lookup s = .next { s with l := lookupFormula s.kt s.l, status := completedWith 0 } ∧
    ∃ t u, exec .lookup s = .next t ∧ exec .lookup t = .next u ∧ u.l = lookupFormula s.kt (lookupFormula s.kt s.l)

/-- `F` reads no round word, and is 0 where every substitution word is 0 (41_feistel_core.md section 1). -/
def Obligations.LookupReadsSubstitutionWordsOnly : Prop :=
  ∀ s s' : State, s'.l = s.l → (∀ i, 18 ≤ i → i < 1042 → ktWord s'.kt i = ktWord s.kt i) →
    ∃ t t', exec .lookup s = .next t ∧ exec .lookup s' = .next t' ∧ t'.l = t.l ∧
      ((∀ i, 18 ≤ i → i < 1042 → ktWord s.kt i = 0) → t.l = 0)

/-- `XFORM` runs sixteen rounds `(a, b) -> (b XOR F(P[i] XOR a), P[i] XOR a)`: forward with words 0 to 15 and the boundary
words 16 (right) and 17 (left), reverse with words 17 to 2 and the boundary words 0 (left) and 1 (right); it writes `L` and
`R` alone; over a zero table either direction swaps them (41_feistel_core.md section 2). -/
def Obligations.XformRunsSixteenRounds : Prop :=
  ∀ s : State,
    (∃ a b : Nat → Word, a 0 = s.l ∧ b 0 = s.r ∧
      (∀ i, i < 16 → b (i + 1) = ktWord s.kt i ^^^ a i ∧ a (i + 1) = b i ^^^ lookupFormula s.kt (b (i + 1))) ∧
      exec (.xform .forward) s = .next { s with
        l := b 16 ^^^ ktWord s.kt 17, r := a 16 ^^^ ktWord s.kt 16, status := completedWith 0 }) ∧
    (∃ a b : Nat → Word, a 0 = s.l ∧ b 0 = s.r ∧
      (∀ i, i < 16 → b (i + 1) = ktWord s.kt (17 - i) ^^^ a i ∧ a (i + 1) = b i ^^^ lookupFormula s.kt (b (i + 1))) ∧
      exec (.xform .reverse) s = .next { s with
        l := b 16 ^^^ ktWord s.kt 0, r := a 16 ^^^ ktWord s.kt 1, status := completedWith 0 }) ∧
    ((∀ i, i < 1042 → ktWord s.kt i = 0) → ∀ dir : Direction,
      exec (.xform dir) s = .next { s with l := s.r, r := s.l, status := completedWith 0 })

/-- For every key table and all words, `XFORM` in one direction and then the other restores `L` and `R` (41_feistel_core.md
section 2, R76, which the spec marks as derived from R72 to R74). -/
def Obligations.XformInBothOrdersRestoresTheBlock : Prop :=
  ∀ s : State,
    (∃ t u, exec (.xform .forward) s = .next t ∧ exec (.xform .reverse) t = .next u ∧ u.l = s.l ∧ u.r = s.r ∧ u.kt = s.kt) ∧
    (∃ t u, exec (.xform .reverse) s = .next t ∧ exec (.xform .forward) t = .next u ∧ u.l = s.l ∧ u.r = s.r ∧ u.kt = s.kt)

/-- `ENC64` and `DEC64` as the host runs them: `BLK64` written, `XFORM`, `BLK64` read back is the transform of its high half
as left and its low half as right (41_feistel_core.md section 2). -/
def Obligations.Enc64TransformsTheBlockView : Prop :=
  ∀ (s : State) (x : BitVec 64) (rest : List HostMove), s.status.busy = false →
    (s.host = pseudoEnc64 x ++ rdBlk64 ++ rest → ∃ t y, runSteps 5 s = .next t ∧ t.host = rest ∧
      exec (.xform .forward) { s with l := x.extractLsb' 32 32, r := x.extractLsb' 0 32 } = .next y ∧
      t.hostData = y.l ++ y.r ∧ t.kt = s.kt) ∧
    (s.host = pseudoDec64 x ++ rdBlk64 ++ rest → ∃ t y, runSteps 5 s = .next t ∧ t.host = rest ∧
      exec (.xform .reverse) { s with l := x.extractLsb' 32 32, r := x.extractLsb' 0 32 } = .next y ∧
      t.hostData = y.l ++ y.r ∧ t.kt = s.kt)

/-! ### The derivation engine -/

/-- `SEED` copies the seed table into `KT`, touches nothing else, and twice is once (R60). -/
def Obligations.SeedCopiesTheSeedTable : Prop :=
  decodeWord 0x00000001 = .ok .seed ∧
  ∀ s : State, exec .seed s = .next { s with kt := Config.seedTable, status := completedWith 0 } ∧
    ∃ t, exec .seed s = .next t ∧ exec .seed t = .next t

/-- `DERIVE` writes `(GC, floor(GC / 2), GC * 2 mod 2^32)` to `D` and touches nothing else (R61). -/
def Obligations.DeriveWritesTheTriple : Prop :=
  decodeWord 0x00000002 = .ok .derive ∧
  ∀ s : State, ∃ t, exec .derive s = .next t ∧ t.d.d0 = s.gc ∧ t.d.d1.toNat = s.gc.toNat / 2 ∧
    t.d.d2.toNat = 2 * s.gc.toNat % 2 ^ 32 ∧ t = { s with d := t.d, status := completedWith 0 }

/-- `RESHIFT` doubles the current `D[1]` modulo 2^32 and halves the current `D[2]`, and touches nothing else; after `DERIVE`
it gives `GC` without bit 0 and `GC` without bit 31. It is neither its own inverse nor that of `DERIVE` (R66). -/
def Obligations.ReshiftShiftsTheTriple : Prop :=
  decodeWord 0x00000005 = .ok .reshift ∧
  (∀ s : State, ∃ t, exec .reshift s = .next t ∧ t.d.d0 = s.d.d0 ∧ t.d.d1.toNat = 2 * s.d.d1.toNat % 2 ^ 32 ∧
    t.d.d2.toNat = s.d.d2.toNat / 2 ∧ t = { s with d := t.d, status := completedWith 0 }) ∧
  (∀ s : State, ∃ a t, exec .derive s = .next a ∧ exec .reshift a = .next t ∧
    t.d.d1 = s.gc &&& 0xFFFFFFFE ∧ t.d.d2 = s.gc &&& 0x7FFFFFFF) ∧
  (∃ s a t : State, exec .reshift s = .next a ∧ exec .reshift a = .next t ∧ t.d ≠ s.d) ∧
  ∃ s a t : State, exec .derive s = .next a ∧ exec .reshift a = .next t ∧ t.d.d1 ≠ s.gc ∧ t.d.d2 ≠ s.gc

/-- Phase 1 of a mutation: round word `j` is XORed with the bytes `(4*j + i) mod 8` of the triple, the first most significant,
which is `bswap32(D[j mod 2])`; the substitution words stay (R63). -/
def Obligations.MutatePhaseOneXorsTheByteSwappedWords : Prop :=
  ∀ (kt : KeyTable) (d : Triple) (j : Nat), j < 1042 →
    (j < 18 → ∃ acc : Word, ktWord (mutatePhase1 kt d) j = ktWord kt j ^^^ acc ∧
      acc.toNat = 2 ^ 24 * tripleByteOf d (4 * j % 8) + 2 ^ 16 * tripleByteOf d ((4 * j + 1) % 8) +
        2 ^ 8 * tripleByteOf d ((4 * j + 2) % 8) + tripleByteOf d ((4 * j + 3) % 8) ∧
      acc = bswap32 (if j % 2 = 0 then d.d0 else d.d1)) ∧
    (18 ≤ j → ktWord (mutatePhase1 kt d) j = ktWord kt j)

/-- `MUTATE`: after phase 1, 521 forward transforms, each on the result of the one before and over the table with every
earlier write in place, the first on `(0, 0)`; transform `n` writes its left output to `KT[2n]` and its right output to
`KT[2n + 1]`. `D` and everything but `KT`, `L`, `R` stay. A zero table with `D[0] = D[1] = 0` stays zero (R64). -/
def Obligations.MutateRegeneratesTheTableInPlace : Prop :=
  (∀ s : State, ∃ (t : State) (T : Nat → KeyTable) (x : Nat → Block), exec .mutate s = .next t ∧
    T 0 = mutatePhase1 s.kt s.d ∧ x 0 = ⟨0, 0⟩ ∧
    (∀ n, n < 521 → x (n + 1) = enc (T n) (x n) ∧
      ∀ i, i < 1042 → ktWord (T (n + 1)) i =
        if i = 2 * n then (x (n + 1)).left else if i = 2 * n + 1 then (x (n + 1)).right else ktWord (T n) i) ∧
    t = { s with kt := T 521, l := t.l, r := t.r, draws := t.draws, status := completedWith 0 }) ∧
  (∀ s : State, (∀ i, i < 1042 → ktWord s.kt i = 0) → s.d.d0 = 0 → s.d.d1 = 0 →
    ∃ t, exec .mutate s = .next t ∧ ∀ i, i < 1042 → ktWord t.kt i = 0)

/-- `D[2]` has no influence on the table `MUTATE` leaves (40_key_table_derivation.md section 3). -/
def Obligations.MutateIgnoresTheThirdWord : Prop :=
  ∀ (s : State) (v : Word), ∃ t u, exec .mutate s = .next t ∧
    exec .mutate { s with d := ⟨s.d.d0, s.d.d1, v⟩ } = .next u ∧ u.kt = t.kt

/-- `MIXSTEP`: two forward transforms on the triple over the table before the mutation, `(D[2], D[1])` and then
`(D[1], D[0])`, and then the table `MUTATE` leaves with the new triple; `L`, `R` aside nothing else changes; over a zero table
`(x, y, z)` becomes `(z, x, y)` (40_key_table_derivation.md section 4; R65 marks the two transforms as from general
knowledge, log 10). -/
def Obligations.MixstepConditionsThenMutates : Prop :=
  decodeWord 0x00000004 = .ok .mixstep ∧
  (∀ s : State, ∃ t m, exec .mixstep s = .next t ∧
    t.d.d2 = (enc s.kt ⟨s.d.d2, s.d.d1⟩).left ∧
    t.d.d1 = (enc s.kt ⟨(enc s.kt ⟨s.d.d2, s.d.d1⟩).right, s.d.d0⟩).left ∧
    t.d.d0 = (enc s.kt ⟨(enc s.kt ⟨s.d.d2, s.d.d1⟩).right, s.d.d0⟩).right ∧
    exec .mutate { s with d := t.d } = .next m ∧ t.kt = m.kt ∧
    t = { s with kt := t.kt, d := t.d, l := t.l, r := t.r, draws := t.draws, status := completedWith 0 }) ∧
  (∀ s : State, (∀ i, i < 1042 → ktWord s.kt i = 0) →
    ∃ t, exec .mixstep s = .next t ∧ t.d = ⟨s.d.d2, s.d.d0, s.d.d1⟩)

/-- `INIT1` leaves the table and the triple that `SEED`, `DERIVE`, `MIXSTEP`, `MIXSTEP` leave, whatever table and triple it
finds; `L`, `R` aside nothing else changes; over a zero seed table with `GC = 0` the table stays zero (R67). -/
def Obligations.Init1IsSeedDeriveMixstepMixstep : Prop :=
  decodeWord 0x00000008 = .ok .init1 ∧
  (∀ s : State, ∃ a b c e t, exec .seed s = .next a ∧ exec .derive a = .next b ∧ exec .mixstep b = .next c ∧
    exec .mixstep c = .next e ∧ exec .init1 s = .next t ∧ t.kt = e.kt ∧ t.d = e.d ∧
    t = { s with kt := t.kt, d := t.d, l := t.l, r := t.r, draws := t.draws, status := completedWith 0 }) ∧
  (∀ s s' : State, s'.gc = s.gc → ∃ t t', exec .init1 s = .next t ∧ exec .init1 s' = .next t' ∧
    t'.kt = t.kt ∧ t'.d = t.d) ∧
  (∀ seed : KeyTable, (∀ i, i < 1042 → ktWord seed i = 0) → ∀ i, i < 1042 → ktWord (init1 seed 0).kt i = 0)

/-- `INIT2` leaves the table and the triple that `RESHIFT`, `MIXSTEP` leave, one mix step and no seeding; `L`, `R` aside
nothing else changes (40_key_table_derivation.md section 5). -/
def Obligations.Init2IsReshiftMixstep : Prop :=
  decodeWord 0x00000009 = .ok .init2 ∧
  ∀ s : State, ∃ a b t, exec .reshift s = .next a ∧ exec .mixstep a = .next b ∧ exec .init2 s = .next t ∧
    t.kt = b.kt ∧ t.d = b.d ∧
    t = { s with kt := t.kt, d := t.d, l := t.l, r := t.r, draws := t.draws, status := completedWith 0 }

/-- `INIT0` leaves the table and the triple `INIT1` leaves, and in `SALT` what the open salt step makes of that table
(40_key_table_derivation.md section 5; R69 (b) marks as from general knowledge that the step leaves the table, log 8). -/
def Obligations.Init0IsInit1AndTheSaltStep : Prop :=
  decodeWord 0x0000000A = .ok .init0 ∧
  ∀ s : State, ∃ a t, exec .init1 s = .next a ∧ exec .init0 s = .next t ∧ t.kt = a.kt ∧ t.d = a.d ∧
    (t.salt0, t.salt1) = Config.saltStep a.kt ∧
    t = { s with kt := t.kt, d := t.d, salt0 := t.salt0, salt1 := t.salt1, l := t.l, r := t.r, draws := t.draws,
                 status := completedWith 0 }

/-! ### The codec -/

/-- `SADEC`, with `a.kt` the "init1" table and `b.kt` the "init2" table of the game code: the header block is reverse
transformed with the first and then with the second; where that gives the magic pair the sentinel pair replaces it and each of
the 255 strides is reverse transformed with the second, code 0; where not, code 2, the header holds the transformed block and
no other byte changes. `KT`, `D`, `L`, `R` aside nothing else changes (42_secure_area_codec.md sections 1 and 2). -/
def Obligations.SadecDecryptsTheRegion : Prop :=
  ∀ s : State, ∃ a b t, exec .init1 s = .next a ∧ exec .init2 a = .next b ∧ exec .sadec s = .next t ∧
    (dec b.kt (dec a.kt (blockAt s 0)) = ⟨0x6A624F79, 0x72636E65⟩ →
      t.status = completedWith 0 ∧ blockAt t 0 = ⟨0xE7FFDEFF, 0xE7FFDEFF⟩ ∧
      ∀ k, k < 255 → blockAt t (8 + 8 * k) = dec b.kt (blockAt s (8 + 8 * k))) ∧
    (dec b.kt (dec a.kt (blockAt s 0)) ≠ ⟨0x6A624F79, 0x72636E65⟩ →
      t.status = completedWith 2 ∧ blockAt t 0 = dec b.kt (dec a.kt (blockAt s 0)) ∧
      ∀ o, 8 ≤ o → bufByte t o = bufByte s o) ∧
    (∀ o, 0x800 ≤ o → bufByte t o = bufByte s o) ∧
    t = { s with kt := t.kt, d := t.d, l := t.l, r := t.r, draws := t.draws, buf := t.buf, status := t.status }

/-- `SAENC`, with `a.kt` and `b.kt` as in `SADEC`: where the header is not the sentinel pair, code 3 and nothing else changes;
where it is, code 0, each of the 255 strides is forward transformed with the "init2" table, and the header holds the magic pair
forward transformed with the "init2" and then with the "init1" table. `KT`, `D`, `L`, `R` aside nothing else changes
(42_secure_area_codec.md sections 1 and 3). -/
def Obligations.SaencEncryptsTheRegion : Prop :=
  ∀ s : State, ∃ a b t, exec .init1 s = .next a ∧ exec .init2 a = .next b ∧ exec .saenc s = .next t ∧
    (blockAt s 0 ≠ ⟨0xE7FFDEFF, 0xE7FFDEFF⟩ → t = { s with status := completedWith 3 }) ∧
    (blockAt s 0 = ⟨0xE7FFDEFF, 0xE7FFDEFF⟩ →
      t.status = completedWith 0 ∧ blockAt t 0 = enc a.kt (enc b.kt ⟨0x6A624F79, 0x72636E65⟩) ∧
      ∀ k, k < 255 → blockAt t (8 + 8 * k) = enc b.kt (blockAt s (8 + 8 * k))) ∧
    (∀ o, 0x800 ≤ o → bufByte t o = bufByte s o) ∧
    t = { s with kt := t.kt, d := t.d, l := t.l, r := t.r, draws := t.draws, buf := t.buf, status := t.status }

/-- `DecryptionMismatch` is raised by `SADEC` alone, exactly when a header word differs from its magic constant after the two
reverse transforms; then the sentinel is not written and no stride is transformed (R91). -/
def Obligations.DecryptionMismatchComesFromSadecAlone : Prop :=
  (∀ (i : Instr) (s t : State), exec i s = .next t → t.status.result = 2 → i = .sadec) ∧
  ∀ s : State, ∃ a b t, exec .init1 s = .next a ∧ exec .init2 a = .next b ∧ exec .sadec s = .next t ∧
    (t.status.result = 2 ↔ (dec b.kt (dec a.kt (blockAt s 0))).right ≠ 0x72636E65 ∨
      (dec b.kt (dec a.kt (blockAt s 0))).left ≠ 0x6A624F79) ∧
    (t.status.result = 2 → blockAt t 0 = dec b.kt (dec a.kt (blockAt s 0)) ∧ ∀ o, 8 ≤ o → bufByte t o = bufByte s o)

/-- `AlreadyEncryptedPrecondition` is raised by `SAENC` alone, exactly when either of the first two words differs from the
sentinel; `BUF` is then unchanged (R92). -/
def Obligations.AlreadyEncryptedComesFromSaencAlone : Prop :=
  (∀ (i : Instr) (s t : State), exec i s = .next t → t.status.result = 3 → i = .saenc) ∧
  ∀ s : State, ∃ t, exec .saenc s = .next t ∧
    (t.status.result = 3 ↔ memRead s 0 ≠ 0xE7FFDEFF ∨ memRead s 4 ≠ 0xE7FFDEFF) ∧
    (t.status.result = 3 → ∀ o, bufByte t o = bufByte s o)

/-- A failed `SAENC` issued again fails again and changes nothing (60_exceptions.md section 5, 42_secure_area_codec.md
section 4). -/
def Obligations.FailedSaencRepeats : Prop :=
  ∀ s t : State, exec .saenc s = .next t → t.status.result = 3 →
    t = { s with status := completedWith 3 } ∧ exec .saenc t = .next t

/-- Round trip: what `SAENC` made of a buffer with code 0, `SADEC` with the same game code restores, byte for byte, with
code 0, whatever the rest of the state; and the other way round (42_secure_area_codec.md section 4, R84, which the spec
derives from R81, R82, R67 and R68). -/
def Obligations.EncryptAndDecryptRestoreTheBuffer : Prop :=
  (∀ s t s' : State, exec .saenc s = .next t → t.status.result = 0 → s'.gc = s.gc → s'.buf = t.buf →
    s'.resetDraw = t.resetDraw →
    ∃ u, exec .sadec s' = .next u ∧ u.status.result = 0 ∧ ∀ o, o < 0x800 → bufByte u o = bufByte s o) ∧
  (∀ s t s' : State, exec .sadec s = .next t → t.status.result = 0 → s'.gc = s.gc → s'.buf = t.buf →
    s'.resetDraw = t.resetDraw →
    ∃ u, exec .saenc s' = .next u ∧ u.status.result = 0 ∧ ∀ o, o < 0x800 → bufByte u o = bufByte s o)

/-- Neither codec command's buffer or code depends on the `KT`, `D`, `L`, `R`, `SALT`, `CMDREG`, `STATUS` or host moves it
finds: two states with the same game code and the same buffer give the same (42_secure_area_codec.md section 4). -/
def Obligations.CodecDependsOnGameCodeAndBufferAlone : Prop :=
  ∀ (i : Instr) (s s' : State), i = .sadec ∨ i = .saenc → s'.gc = s.gc → s'.buf = s.buf → s'.resetDraw = s.resetDraw →
    ∃ t t', exec i s = .next t ∧ exec i s' = .next t' ∧ t'.buf = t.buf ∧ t'.status = t.status

/-- The ciphertext of one 8-byte block depends on the game code and that block alone, and the ciphertext of the header on the
game code alone (42_secure_area_codec.md section 3). -/
def Obligations.CiphertextBlocksAreIndependent : Prop :=
  ∀ s s' t t' : State, s'.gc = s.gc → exec .saenc s = .next t → exec .saenc s' = .next t' → t.status.result = 0 →
    t'.status.result = 0 →
    blockAt t' 0 = blockAt t 0 ∧
    ∀ k, k < 255 → blockAt s' (8 + 8 * k) = blockAt s (8 + 8 * k) → blockAt t' (8 + 8 * k) = blockAt t (8 + 8 * k)

/-! ### Rules of the whole machine -/

/-- Every command completes, from every state: not busy, done, with a code `SADEC` (0, 2) or `SAENC` (0, 3) or any other
command (0) can have; and no command's effect depends on the `STATUS` it finds (10_state.md section 4, R22, which the spec
marks as derived). -/
def Obligations.EveryCommandCompletesAndReadsNoStatus : Prop :=
  (∀ (i : Instr) (s : State), ∃ t, exec i s = .next t ∧ t.status.busy = false ∧ t.status.done = true ∧
    (i = .sadec → t.status.result = 0 ∨ t.status.result = 2) ∧
    (i = .saenc → t.status.result = 0 ∨ t.status.result = 3) ∧
    (i ≠ .sadec → i ≠ .saenc → t.status.result = 0)) ∧
  (∀ (i : Instr) (s : State) (st : Status), exec i { s with status := st } = exec i s) ∧
  (∀ s : State, sequencerToMove s → (∃ e, decodeWord s.cmdReg = .error e) →
    ∃ t, step s = .next t ∧ t.status = completedWith 4)

/-- Which command writes what: every element a command does not name is unchanged, every byte of `BUF` among them
(10_state.md section 8). -/
def Obligations.CommandsWriteOnlyWhatTheyName : Prop :=
  ∀ (i : Instr) (s t : State), exec i s = .next t →
    t.gc = s.gc ∧ t.cmdReg = s.cmdReg ∧ t.host = s.host ∧ t.hostData = s.hostData ∧ t.resetDraw = s.resetDraw ∧
    (i = .derive ∨ i = .reshift ∨ i = .lookup ∨ (∃ dir, i = .xform dir) → t.kt = s.kt) ∧
    (i = .seed ∨ i = .mutate ∨ i = .lookup ∨ (∃ dir, i = .xform dir) → t.d = s.d) ∧
    (i = .seed ∨ i = .derive ∨ i = .reshift → t.l = s.l) ∧
    (i = .seed ∨ i = .derive ∨ i = .reshift ∨ i = .lookup → t.r = s.r) ∧
    (i ≠ .init0 → t.salt0 = s.salt0 ∧ t.salt1 = s.salt1) ∧
    (i ≠ .sadec → i ≠ .saenc → t.buf = s.buf ∧ ∀ o, bufByte t o = bufByte s o) ∧
    ∀ o, 0x800 ≤ o → bufByte t o = bufByte s o

/-- Every step keeps a legal state legal: `STATUS` never busy and done at once and never with a code the core does not
produce, and `BUF` in its canonical form within 0x800 bytes (10_state.md sections 4 and 5). -/
def Obligations.EveryStepKeepsTheStateLegal : Prop :=
  ∀ s t : State, s.legal → step s = .next t → t.legal

/-- The state after reset is legal (10_state.md section 9). -/
def Obligations.ResetStateIsLegal : Prop :=
  State.reset.legal

end
end

