-- ==== Sys2Proof/Laws/State.lean ====
section
/-! SUPPORT. What each named update of the state leaves in each field, so that no later proof unfolds a record update.
Each is true by `rfl`, written `(rfl)` so that `simp` cites the lemma: left to redo the `rfl`, the kernel would compare
whole states and evaluate a key derivation. -/

namespace Sys2Proof.Machine

section SetTable

/-! `setTable` writes `kt` alone. -/

variable (kt : KeyTable) (s : State)

@[simp] theorem setTable_kt : (setTable kt s).kt = kt := (rfl)
@[simp] theorem setTable_gc : (setTable kt s).gc = s.gc := (rfl)
@[simp] theorem setTable_d : (setTable kt s).d = s.d := (rfl)
@[simp] theorem setTable_l : (setTable kt s).l = s.l := (rfl)
@[simp] theorem setTable_r : (setTable kt s).r = s.r := (rfl)
@[simp] theorem setTable_salt0 : (setTable kt s).salt0 = s.salt0 := (rfl)
@[simp] theorem setTable_salt1 : (setTable kt s).salt1 = s.salt1 := (rfl)
@[simp] theorem setTable_status : (setTable kt s).status = s.status := (rfl)
@[simp] theorem setTable_cmdReg : (setTable kt s).cmdReg = s.cmdReg := (rfl)
@[simp] theorem setTable_buf : (setTable kt s).buf = s.buf := (rfl)
@[simp] theorem setTable_draws : (setTable kt s).draws = s.draws := (rfl)
@[simp] theorem setTable_resetDraw : (setTable kt s).resetDraw = s.resetDraw := (rfl)
@[simp] theorem setTable_host : (setTable kt s).host = s.host := (rfl)
@[simp] theorem setTable_hostData : (setTable kt s).hostData = s.hostData := (rfl)

end SetTable

section SetTriple

/-! `setTriple` writes `d` alone. -/

variable (d : Triple) (s : State)

@[simp] theorem setTriple_kt : (setTriple d s).kt = s.kt := (rfl)
@[simp] theorem setTriple_gc : (setTriple d s).gc = s.gc := (rfl)
@[simp] theorem setTriple_d : (setTriple d s).d = d := (rfl)
@[simp] theorem setTriple_l : (setTriple d s).l = s.l := (rfl)
@[simp] theorem setTriple_r : (setTriple d s).r = s.r := (rfl)
@[simp] theorem setTriple_salt0 : (setTriple d s).salt0 = s.salt0 := (rfl)
@[simp] theorem setTriple_salt1 : (setTriple d s).salt1 = s.salt1 := (rfl)
@[simp] theorem setTriple_status : (setTriple d s).status = s.status := (rfl)
@[simp] theorem setTriple_cmdReg : (setTriple d s).cmdReg = s.cmdReg := (rfl)
@[simp] theorem setTriple_buf : (setTriple d s).buf = s.buf := (rfl)
@[simp] theorem setTriple_draws : (setTriple d s).draws = s.draws := (rfl)
@[simp] theorem setTriple_resetDraw : (setTriple d s).resetDraw = s.resetDraw := (rfl)
@[simp] theorem setTriple_host : (setTriple d s).host = s.host := (rfl)
@[simp] theorem setTriple_hostData : (setTriple d s).hostData = s.hostData := (rfl)

end SetTriple

section SetKey

/-! `setKey` writes `kt` and `d`. -/

variable (k : KeyState) (s : State)

@[simp] theorem setKey_kt : (setKey k s).kt = k.kt := (rfl)
@[simp] theorem setKey_gc : (setKey k s).gc = s.gc := (rfl)
@[simp] theorem setKey_d : (setKey k s).d = k.d := (rfl)
@[simp] theorem setKey_l : (setKey k s).l = s.l := (rfl)
@[simp] theorem setKey_r : (setKey k s).r = s.r := (rfl)
@[simp] theorem setKey_salt0 : (setKey k s).salt0 = s.salt0 := (rfl)
@[simp] theorem setKey_salt1 : (setKey k s).salt1 = s.salt1 := (rfl)
@[simp] theorem setKey_status : (setKey k s).status = s.status := (rfl)
@[simp] theorem setKey_cmdReg : (setKey k s).cmdReg = s.cmdReg := (rfl)
@[simp] theorem setKey_buf : (setKey k s).buf = s.buf := (rfl)
@[simp] theorem setKey_draws : (setKey k s).draws = s.draws := (rfl)
@[simp] theorem setKey_resetDraw : (setKey k s).resetDraw = s.resetDraw := (rfl)
@[simp] theorem setKey_host : (setKey k s).host = s.host := (rfl)
@[simp] theorem setKey_hostData : (setKey k s).hostData = s.hostData := (rfl)

end SetKey

section SetBlock

/-! `setBlock` writes `l` and `r`. -/

variable (b : Block) (s : State)

@[simp] theorem setBlock_kt : (setBlock b s).kt = s.kt := (rfl)
@[simp] theorem setBlock_gc : (setBlock b s).gc = s.gc := (rfl)
@[simp] theorem setBlock_d : (setBlock b s).d = s.d := (rfl)
@[simp] theorem setBlock_l : (setBlock b s).l = b.left := (rfl)
@[simp] theorem setBlock_r : (setBlock b s).r = b.right := (rfl)
@[simp] theorem setBlock_salt0 : (setBlock b s).salt0 = s.salt0 := (rfl)
@[simp] theorem setBlock_salt1 : (setBlock b s).salt1 = s.salt1 := (rfl)
@[simp] theorem setBlock_status : (setBlock b s).status = s.status := (rfl)
@[simp] theorem setBlock_cmdReg : (setBlock b s).cmdReg = s.cmdReg := (rfl)
@[simp] theorem setBlock_buf : (setBlock b s).buf = s.buf := (rfl)
@[simp] theorem setBlock_draws : (setBlock b s).draws = s.draws := (rfl)
@[simp] theorem setBlock_resetDraw : (setBlock b s).resetDraw = s.resetDraw := (rfl)
@[simp] theorem setBlock_host : (setBlock b s).host = s.host := (rfl)
@[simp] theorem setBlock_hostData : (setBlock b s).hostData = s.hostData := (rfl)

end SetBlock

section SetSalt

/-! `setSalt` writes the salt words. -/

variable (w : Word × Word) (s : State)

@[simp] theorem setSalt_kt : (setSalt w s).kt = s.kt := (rfl)
@[simp] theorem setSalt_gc : (setSalt w s).gc = s.gc := (rfl)
@[simp] theorem setSalt_d : (setSalt w s).d = s.d := (rfl)
@[simp] theorem setSalt_l : (setSalt w s).l = s.l := (rfl)
@[simp] theorem setSalt_r : (setSalt w s).r = s.r := (rfl)
@[simp] theorem setSalt_salt0 : (setSalt w s).salt0 = w.1 := (rfl)
@[simp] theorem setSalt_salt1 : (setSalt w s).salt1 = w.2 := (rfl)
@[simp] theorem setSalt_status : (setSalt w s).status = s.status := (rfl)
@[simp] theorem setSalt_cmdReg : (setSalt w s).cmdReg = s.cmdReg := (rfl)
@[simp] theorem setSalt_buf : (setSalt w s).buf = s.buf := (rfl)
@[simp] theorem setSalt_draws : (setSalt w s).draws = s.draws := (rfl)
@[simp] theorem setSalt_resetDraw : (setSalt w s).resetDraw = s.resetDraw := (rfl)
@[simp] theorem setSalt_host : (setSalt w s).host = s.host := (rfl)
@[simp] theorem setSalt_hostData : (setSalt w s).hostData = s.hostData := (rfl)

end SetSalt

section LoseBlock

/-! `loseBlock` leaves free words in `l` and `r`. -/

variable (s : State)

@[simp] theorem loseBlock_kt : (loseBlock s).kt = s.kt := (rfl)
@[simp] theorem loseBlock_gc : (loseBlock s).gc = s.gc := (rfl)
@[simp] theorem loseBlock_d : (loseBlock s).d = s.d := (rfl)
@[simp] theorem loseBlock_l : (loseBlock s).l = Config.freeWord s.draws 0 := (rfl)
@[simp] theorem loseBlock_r : (loseBlock s).r = Config.freeWord s.draws 1 := (rfl)
@[simp] theorem loseBlock_salt0 : (loseBlock s).salt0 = s.salt0 := (rfl)
@[simp] theorem loseBlock_salt1 : (loseBlock s).salt1 = s.salt1 := (rfl)
@[simp] theorem loseBlock_status : (loseBlock s).status = s.status := (rfl)
@[simp] theorem loseBlock_cmdReg : (loseBlock s).cmdReg = s.cmdReg := (rfl)
@[simp] theorem loseBlock_buf : (loseBlock s).buf = s.buf := (rfl)
@[simp] theorem loseBlock_draws : (loseBlock s).draws = s.draws + 1 := (rfl)
@[simp] theorem loseBlock_resetDraw : (loseBlock s).resetDraw = s.resetDraw := (rfl)
@[simp] theorem loseBlock_host : (loseBlock s).host = s.host := (rfl)
@[simp] theorem loseBlock_hostData : (loseBlock s).hostData = s.hostData := (rfl)

end LoseBlock

section LoseCipherState

/-! `loseCipherState` leaves free words in `kt`, `d`, `l` and `r`. -/

variable (s : State)

@[simp] theorem loseCipherState_kt : (loseCipherState s).kt = Config.freeTable s.draws := (rfl)
@[simp] theorem loseCipherState_gc : (loseCipherState s).gc = s.gc := (rfl)
@[simp] theorem loseCipherState_d : (loseCipherState s).d = ⟨Config.freeWord s.draws 2, Config.freeWord s.draws 3, Config.freeWord s.draws 4⟩ := (rfl)
@[simp] theorem loseCipherState_l : (loseCipherState s).l = Config.freeWord s.draws 0 := (rfl)
@[simp] theorem loseCipherState_r : (loseCipherState s).r = Config.freeWord s.draws 1 := (rfl)
@[simp] theorem loseCipherState_salt0 : (loseCipherState s).salt0 = s.salt0 := (rfl)
@[simp] theorem loseCipherState_salt1 : (loseCipherState s).salt1 = s.salt1 := (rfl)
@[simp] theorem loseCipherState_status : (loseCipherState s).status = s.status := (rfl)
@[simp] theorem loseCipherState_cmdReg : (loseCipherState s).cmdReg = s.cmdReg := (rfl)
@[simp] theorem loseCipherState_buf : (loseCipherState s).buf = s.buf := (rfl)
@[simp] theorem loseCipherState_draws : (loseCipherState s).draws = s.draws + 1 := (rfl)
@[simp] theorem loseCipherState_resetDraw : (loseCipherState s).resetDraw = s.resetDraw := (rfl)
@[simp] theorem loseCipherState_host : (loseCipherState s).host = s.host := (rfl)
@[simp] theorem loseCipherState_hostData : (loseCipherState s).hostData = s.hostData := (rfl)

end LoseCipherState

section Complete

/-! `complete` writes `status` alone. -/

variable (code : ResultCode) (s : State)

@[simp] theorem complete_kt : (complete code s).kt = s.kt := (rfl)
@[simp] theorem complete_gc : (complete code s).gc = s.gc := (rfl)
@[simp] theorem complete_d : (complete code s).d = s.d := (rfl)
@[simp] theorem complete_l : (complete code s).l = s.l := (rfl)
@[simp] theorem complete_r : (complete code s).r = s.r := (rfl)
@[simp] theorem complete_salt0 : (complete code s).salt0 = s.salt0 := (rfl)
@[simp] theorem complete_salt1 : (complete code s).salt1 = s.salt1 := (rfl)
@[simp] theorem complete_status : (complete code s).status = ⟨false, true, code.number⟩ := (rfl)
@[simp] theorem complete_cmdReg : (complete code s).cmdReg = s.cmdReg := (rfl)
@[simp] theorem complete_buf : (complete code s).buf = s.buf := (rfl)
@[simp] theorem complete_draws : (complete code s).draws = s.draws := (rfl)
@[simp] theorem complete_resetDraw : (complete code s).resetDraw = s.resetDraw := (rfl)
@[simp] theorem complete_host : (complete code s).host = s.host := (rfl)
@[simp] theorem complete_hostData : (complete code s).hostData = s.hostData := (rfl)

end Complete

section Issue

/-! `issue` writes `cmdReg` and `status`. -/

variable (w : Word) (s : State)

@[simp] theorem issue_kt : (issue w s).kt = s.kt := (rfl)
@[simp] theorem issue_gc : (issue w s).gc = s.gc := (rfl)
@[simp] theorem issue_d : (issue w s).d = s.d := (rfl)
@[simp] theorem issue_l : (issue w s).l = s.l := (rfl)
@[simp] theorem issue_r : (issue w s).r = s.r := (rfl)
@[simp] theorem issue_salt0 : (issue w s).salt0 = s.salt0 := (rfl)
@[simp] theorem issue_salt1 : (issue w s).salt1 = s.salt1 := (rfl)
@[simp] theorem issue_status : (issue w s).status = ⟨true, false, 0⟩ := (rfl)
@[simp] theorem issue_cmdReg : (issue w s).cmdReg = w := (rfl)
@[simp] theorem issue_buf : (issue w s).buf = s.buf := (rfl)
@[simp] theorem issue_draws : (issue w s).draws = s.draws := (rfl)
@[simp] theorem issue_resetDraw : (issue w s).resetDraw = s.resetDraw := (rfl)
@[simp] theorem issue_host : (issue w s).host = s.host := (rfl)
@[simp] theorem issue_hostData : (issue w s).hostData = s.hostData := (rfl)

end Issue

section ApplyReset

/-! `applyReset` keeps the host's side alone. -/

variable (s : State)

@[simp] theorem applyReset_kt : (applyReset s).kt = Config.freeTable s.draws := (rfl)
@[simp] theorem applyReset_gc : (applyReset s).gc = 0 := (rfl)
@[simp] theorem applyReset_d : (applyReset s).d = ⟨0, 0, 0⟩ := (rfl)
@[simp] theorem applyReset_l : (applyReset s).l = 0 := (rfl)
@[simp] theorem applyReset_r : (applyReset s).r = 0 := (rfl)
@[simp] theorem applyReset_salt0 : (applyReset s).salt0 = 0 := (rfl)
@[simp] theorem applyReset_salt1 : (applyReset s).salt1 = 0 := (rfl)
@[simp] theorem applyReset_status : (applyReset s).status = ⟨false, false, 0⟩ := (rfl)
@[simp] theorem applyReset_cmdReg : (applyReset s).cmdReg = 0 := (rfl)
@[simp] theorem applyReset_buf : (applyReset s).buf = [] := (rfl)
@[simp] theorem applyReset_draws : (applyReset s).draws = s.draws + 1 := (rfl)
@[simp] theorem applyReset_resetDraw : (applyReset s).resetDraw = s.draws := (rfl)
@[simp] theorem applyReset_host : (applyReset s).host = s.host := (rfl)
@[simp] theorem applyReset_hostData : (applyReset s).hostData = s.hostData := (rfl)

end ApplyReset

end Sys2Proof.Machine
end

