-- ==== Sys2Proof/Laws/Memory.lean ====
section
/-! SUPPORT. The laws of the buffer: read after write, what a write leaves alone, the canonical form is kept, equal
contents are equal lists (20_memory.md R31, R36). -/

namespace Sys2Proof.Machine

/-! ### The list of cells -/

theorem Memory.lookup_insert_same (m : Memory) (o : Nat) (v : Byte) :
    Memory.lookup (Memory.insert m o v) o = some v := by
  induction m with
  | nil => simp [Memory.insert, Memory.lookup]
  | cons c rest ih =>
    obtain ⟨a, b⟩ := c
    unfold Memory.insert
    split_ifs with h1 h2
    · simp [Memory.lookup]
    · simp [Memory.lookup]
    · simp [Memory.lookup, ih, Ne.symm h2]

theorem Memory.lookup_insert_other {o p : Nat} (m : Memory) (v : Byte) (h : p ≠ o) :
    Memory.lookup (Memory.insert m o v) p = Memory.lookup m p := by
  induction m with
  | nil => simp [Memory.insert, Memory.lookup, Ne.symm h]
  | cons c rest ih =>
    obtain ⟨a, b⟩ := c
    unfold Memory.insert
    split_ifs with h1 h2
    · simp [Memory.lookup, Ne.symm h]
    · subst h2; simp [Memory.lookup, Ne.symm h]
    · simp [Memory.lookup, ih]

theorem Memory.mem_insert {m : Memory} {o : Nat} {v : Byte} {c : Host.Cell}
    (h : c ∈ Memory.insert m o v) : c = (o, v) ∨ c ∈ m := by
  induction m with
  | nil => simpa [Memory.insert] using h
  | cons e rest ih =>
    obtain ⟨a, b⟩ := e
    unfold Memory.insert at h
    split_ifs at h with h1 h2
    · simpa using h
    · rcases List.mem_cons.1 h with h | h
      · exact .inl h
      · exact .inr (List.mem_cons_of_mem _ h)
    · rcases List.mem_cons.1 h with h | h
      · exact .inr (h ▸ List.mem_cons_self)
      · rcases ih h with h | h
        · exact .inl h
        · exact .inr (List.mem_cons_of_mem _ h)

theorem Memory.insert_rising {m : Memory} (o : Nat) (v : Byte)
    (h : m.Pairwise fun c e => c.1 < e.1) : (Memory.insert m o v).Pairwise fun c e => c.1 < e.1 := by
  induction m with
  | nil => simp [Memory.insert]
  | cons e rest ih =>
    obtain ⟨a, b⟩ := e
    obtain ⟨hhead, hrest⟩ := List.pairwise_cons.1 h
    unfold Memory.insert
    split_ifs with h1 h2
    · refine List.pairwise_cons.2 ⟨fun c hc => ?_, h⟩
      rcases List.mem_cons.1 hc with rfl | hc
      · exact h1
      · exact lt_trans h1 (hhead c hc)
    · subst h2
      exact List.pairwise_cons.2 ⟨fun c hc => hhead c hc, hrest⟩
    · refine List.pairwise_cons.2 ⟨fun c hc => ?_, ih hrest⟩
      rcases Memory.mem_insert hc with rfl | hc
      · simp only; omega
      · exact hhead c hc

/-- A write keeps the canonical form. -/
theorem Memory.insert_wf {m : Memory} {o : Nat} (v : Byte) (ho : o < bufSize) (h : m.wf) :
    (Memory.insert m o v).wf := by
  refine ⟨Memory.insert_rising o v h.1, fun c hc => ?_⟩
  rcases Memory.mem_insert hc with rfl | hc
  · exact ho
  · exact h.2 c hc

theorem Memory.lookup_eq_none {m : Memory} {o : Nat} (h : ∀ c ∈ m, o < c.1) : Memory.lookup m o = none := by
  induction m with
  | nil => rfl
  | cons e rest ih =>
    obtain ⟨a, b⟩ := e
    have := h (a, b) List.mem_cons_self
    rw [Memory.lookup, if_neg (by simp only at this; omega)]
    exact ih fun c hc => h c (List.mem_cons_of_mem _ hc)

/-- Two memories in canonical form that hold the same values are the same list. -/
theorem Memory.ext_of_lookup {m n : Memory} (hm : m.wf) (hn : n.wf)
    (h : ∀ o, Memory.lookup m o = Memory.lookup n o) : m = n := by
  replace hm := hm.1
  replace hn := hn.1
  induction m generalizing n with
  | nil =>
    cases n with
    | nil => rfl
    | cons e rest => simpa [Memory.lookup] using h e.1
  | cons c rest ih =>
    obtain ⟨a, v⟩ := c
    cases n with
    | nil => simpa [Memory.lookup] using h a
    | cons e rest' =>
      obtain ⟨b, w⟩ := e
      obtain ⟨hc, hrest⟩ := List.pairwise_cons.1 hm
      obtain ⟨he, hrest'⟩ := List.pairwise_cons.1 hn
      have hab : a = b := by
        rcases lt_trichotomy a b with hlt | heq | hgt
        · have h1 := h a
          rw [Memory.lookup, if_pos rfl, Memory.lookup_eq_none] at h1
          · exact absurd h1 (by simp)
          · intro x hx
            rcases List.mem_cons.1 hx with rfl | hx
            · exact hlt
            · exact lt_trans hlt (he x hx)
        · exact heq
        · have h1 := h b
          rw [Memory.lookup_eq_none, Memory.lookup, if_pos rfl] at h1
          · exact absurd h1 (by simp)
          · intro x hx
            rcases List.mem_cons.1 hx with rfl | hx
            · exact hgt
            · exact lt_trans hgt (hc x hx)
      subst hab
      have hv : v = w := by simpa [Memory.lookup] using h a
      subst hv
      have : rest = rest' := by
        refine ih (fun o => ?_) hrest hrest'
        by_cases ho : a = o
        · subst ho
          rw [Memory.lookup_eq_none hc, Memory.lookup_eq_none he]
        · simpa [Memory.lookup, ho] using h o
      rw [this]

/-! ### One byte of the buffer -/

section SetBufByte

/-! `setBufByte` writes `buf` alone. -/

variable (o : Nat) (v : Byte) (s : State)

/-- What one byte write does, as one record update. -/
theorem setBufByte_eq : setBufByte o v s = { s with buf := (setBufByte o v s).buf } := by
  unfold setBufByte; split <;> rfl

theorem setBufByte_buf : (setBufByte o v s).buf = if o < bufSize then Memory.insert s.buf o v else s.buf := by
  unfold setBufByte; split <;> rfl

@[simp] theorem setBufByte_kt : (setBufByte o v s).kt = s.kt := by rw [setBufByte_eq]
@[simp] theorem setBufByte_gc : (setBufByte o v s).gc = s.gc := by rw [setBufByte_eq]
@[simp] theorem setBufByte_d : (setBufByte o v s).d = s.d := by rw [setBufByte_eq]
@[simp] theorem setBufByte_l : (setBufByte o v s).l = s.l := by rw [setBufByte_eq]
@[simp] theorem setBufByte_r : (setBufByte o v s).r = s.r := by rw [setBufByte_eq]
@[simp] theorem setBufByte_salt0 : (setBufByte o v s).salt0 = s.salt0 := by rw [setBufByte_eq]
@[simp] theorem setBufByte_salt1 : (setBufByte o v s).salt1 = s.salt1 := by rw [setBufByte_eq]
@[simp] theorem setBufByte_status : (setBufByte o v s).status = s.status := by rw [setBufByte_eq]
@[simp] theorem setBufByte_cmdReg : (setBufByte o v s).cmdReg = s.cmdReg := by rw [setBufByte_eq]
@[simp] theorem setBufByte_draws : (setBufByte o v s).draws = s.draws := by rw [setBufByte_eq]
@[simp] theorem setBufByte_resetDraw : (setBufByte o v s).resetDraw = s.resetDraw := by rw [setBufByte_eq]
@[simp] theorem setBufByte_host : (setBufByte o v s).host = s.host := by rw [setBufByte_eq]
@[simp] theorem setBufByte_hostData : (setBufByte o v s).hostData = s.hostData := by rw [setBufByte_eq]

end SetBufByte

theorem setBufByte_wf (o : Nat) (v : Byte) {s : State} (h : s.buf.wf) : (setBufByte o v s).buf.wf := by
  rw [setBufByte_buf]
  split
  · exact Memory.insert_wf v ‹_› h
  · exact h

/-- A byte read back after its write. -/
theorem bufByte_setBufByte_same {o : Nat} (v : Byte) (s : State) (ho : o < bufSize) :
    bufByte (setBufByte o v s) o = v := by
  simp [bufByte, setBufByte_buf, ho, Memory.lookup_insert_same]

/-- A byte another write leaves alone. -/
theorem bufByte_setBufByte_other {o p : Nat} (v : Byte) (s : State) (h : p ≠ o) :
    bufByte (setBufByte o v s) p = bufByte s p := by
  simp only [bufByte, setBufByte_buf, setBufByte_resetDraw]
  split
  · rw [Memory.lookup_insert_other _ _ h]
  · rfl

/-- A byte depends on the buffer and on where this reset's free bytes begin, on nothing else. -/
theorem bufByte_congr {s t : State} (hb : t.buf = s.buf) (hr : t.resetDraw = s.resetDraw) (o : Nat) :
    bufByte t o = bufByte s o := by
  simp [bufByte, hb, hr]

theorem memRead_congr {s t : State} (hb : t.buf = s.buf) (hr : t.resetDraw = s.resetDraw) (o : Nat) :
    memRead t o = memRead s o := by
  simp [memRead, bufByte_congr hb hr]

/-! ### Words -/

theorem wordOfBytes_bytes (v : Word) : wordOfBytes (byte3 v) (byte2 v) (byte1 v) (byte0 v) = v := by
  apply BitVec.eq_of_toNat_eq
  simp only [wordOfBytes, byte0, byte1, byte2, byte3, BitVec.toNat_append, BitVec.extractLsb'_toNat,
    Nat.shiftRight_eq_div_pow]
  have := v.isLt
  simp only [Nat.shiftLeft_eq, ← Nat.two_pow_add_eq_or_of_lt, Nat.mul_comm _ (2 ^ 8),
    Nat.mod_lt _ (show 0 < 2 ^ 8 by decide)]
  omega

theorem byte_wordOfBytes (b3 b2 b1 b0 : Byte) :
    byte3 (wordOfBytes b3 b2 b1 b0) = b3 ∧ byte2 (wordOfBytes b3 b2 b1 b0) = b2 ∧
      byte1 (wordOfBytes b3 b2 b1 b0) = b1 ∧ byte0 (wordOfBytes b3 b2 b1 b0) = b0 := by
  refine ⟨?_, ?_, ?_, ?_⟩ <;>
  · apply BitVec.eq_of_getLsbD_eq
    intro i hi
    simp only [byte0, byte1, byte2, byte3, wordOfBytes, BitVec.getLsbD_extractLsb', BitVec.getLsbD_append]
    interval_cases i <;> simp

section MemWrite

/-! `memWrite` writes `buf` alone. -/

variable (off : Nat) (v : Word) (s : State)

@[simp] theorem memWrite_kt : (memWrite off v s).kt = s.kt := by simp [memWrite]
@[simp] theorem memWrite_gc : (memWrite off v s).gc = s.gc := by simp [memWrite]
@[simp] theorem memWrite_d : (memWrite off v s).d = s.d := by simp [memWrite]
@[simp] theorem memWrite_l : (memWrite off v s).l = s.l := by simp [memWrite]
@[simp] theorem memWrite_r : (memWrite off v s).r = s.r := by simp [memWrite]
@[simp] theorem memWrite_salt0 : (memWrite off v s).salt0 = s.salt0 := by simp [memWrite]
@[simp] theorem memWrite_salt1 : (memWrite off v s).salt1 = s.salt1 := by simp [memWrite]
@[simp] theorem memWrite_status : (memWrite off v s).status = s.status := by simp [memWrite]
@[simp] theorem memWrite_cmdReg : (memWrite off v s).cmdReg = s.cmdReg := by simp [memWrite]
@[simp] theorem memWrite_draws : (memWrite off v s).draws = s.draws := by simp [memWrite]
@[simp] theorem memWrite_resetDraw : (memWrite off v s).resetDraw = s.resetDraw := by simp [memWrite]
@[simp] theorem memWrite_host : (memWrite off v s).host = s.host := by simp [memWrite]
@[simp] theorem memWrite_hostData : (memWrite off v s).hostData = s.hostData := by simp [memWrite]

end MemWrite

/-- What one word write does, as one record update. -/
theorem memWrite_eq (off : Nat) (v : Word) (s : State) :
    memWrite off v s = { s with buf := (memWrite off v s).buf } := by
  apply State.ext <;> simp

theorem memWrite_wf (off : Nat) (v : Word) {s : State} (h : s.buf.wf) : (memWrite off v s).buf.wf :=
  setBufByte_wf _ _ (setBufByte_wf _ _ (setBufByte_wf _ _ (setBufByte_wf _ _ h)))

/-- A byte outside a word write is left alone. -/
theorem bufByte_memWrite_other {off p : Nat} (v : Word) (s : State) (h : p < off ∨ off + 4 ≤ p) :
    bufByte (memWrite off v s) p = bufByte s p := by
  unfold memWrite
  rw [bufByte_setBufByte_other _ _ (by omega), bufByte_setBufByte_other _ _ (by omega),
    bufByte_setBufByte_other _ _ (by omega), bufByte_setBufByte_other _ _ (by omega)]

/-- The four bytes a word write stores, the least significant at the lowest offset. -/
theorem bufByte_memWrite {off : Nat} (v : Word) (s : State) (h : off + 4 ≤ bufSize) :
    bufByte (memWrite off v s) off = byte0 v ∧ bufByte (memWrite off v s) (off + 1) = byte1 v ∧
      bufByte (memWrite off v s) (off + 2) = byte2 v ∧ bufByte (memWrite off v s) (off + 3) = byte3 v := by
  unfold memWrite
  refine ⟨?_, ?_, ?_, bufByte_setBufByte_same _ _ (by omega)⟩
  · rw [bufByte_setBufByte_other _ _ (by omega), bufByte_setBufByte_other _ _ (by omega),
      bufByte_setBufByte_other _ _ (by omega), bufByte_setBufByte_same _ _ (by omega)]
  · rw [bufByte_setBufByte_other _ _ (by omega), bufByte_setBufByte_other _ _ (by omega),
      bufByte_setBufByte_same _ _ (by omega)]
  · rw [bufByte_setBufByte_other _ _ (by omega), bufByte_setBufByte_same _ _ (by omega)]

/-- A word read back after its write. -/
theorem memRead_memWrite_same {off : Nat} (v : Word) (s : State) (h : off + 4 ≤ bufSize) :
    memRead (memWrite off v s) off = v := by
  obtain ⟨h0, h1, h2, h3⟩ := bufByte_memWrite v s h
  rw [memRead, h0, h1, h2, h3, wordOfBytes_bytes]

/-- A word a disjoint write leaves alone. -/
theorem memRead_memWrite_other {off p : Nat} (v : Word) (s : State) (h : p + 4 ≤ off ∨ off + 4 ≤ p) :
    memRead (memWrite off v s) p = memRead s p := by
  unfold memRead
  rw [bufByte_memWrite_other _ _ (by omega), bufByte_memWrite_other _ _ (by omega),
    bufByte_memWrite_other _ _ (by omega), bufByte_memWrite_other _ _ (by omega)]

/-! ### Blocks -/

section Xbuf

/-! `xbuf`, like every write of a block, writes `buf` alone. -/

variable (kt : KeyTable) (dir : Direction) (off : Nat) (x : Block) (s : State)

/-- What a block write does, as one record update. -/
theorem writeBlockAt_eq : writeBlockAt off x s = { s with buf := (writeBlockAt off x s).buf } := by
  apply State.ext <;> simp [writeBlockAt]

theorem xbuf_eq : xbuf kt dir off s = { s with buf := (xbuf kt dir off s).buf } :=
  writeBlockAt_eq _ _ _

end Xbuf

theorem writeBlockAt_wf (off : Nat) (x : Block) {s : State} (h : s.buf.wf) : (writeBlockAt off x s).buf.wf :=
  memWrite_wf _ _ (memWrite_wf _ _ h)

/-- A byte outside a block write is left alone. -/
theorem bufByte_writeBlockAt_other {off p : Nat} (x : Block) (s : State) (h : p < off ∨ off + 8 ≤ p) :
    bufByte (writeBlockAt off x s) p = bufByte s p := by
  unfold writeBlockAt
  rw [bufByte_memWrite_other _ _ (by omega), bufByte_memWrite_other _ _ (by omega)]

/-- A block read back after its write. -/
theorem blockAt_writeBlockAt_same {off : Nat} (x : Block) (s : State) (h : off + 8 ≤ bufSize) :
    blockAt (writeBlockAt off x s) off = x := by
  unfold blockAt writeBlockAt
  rw [memRead_memWrite_same _ _ (by omega), memRead_memWrite_other _ _ (by omega),
    memRead_memWrite_same _ _ (by omega)]

/-- A block a disjoint write leaves alone. -/
theorem blockAt_writeBlockAt_other {off p : Nat} (x : Block) (s : State) (h : p + 8 ≤ off ∨ off + 8 ≤ p) :
    blockAt (writeBlockAt off x s) p = blockAt s p := by
  unfold blockAt memRead
  repeat rw [bufByte_writeBlockAt_other _ _ (by omega)]

/-- Equal blocks are equal bytes. -/
theorem bufByte_of_blockAt {s t : State} {off : Nat} (h : blockAt t off = blockAt s off) {o : Nat}
    (h1 : off ≤ o) (h2 : o < off + 8) : bufByte t o = bufByte s o := by
  injection h with hl hr
  have l3 := byte_wordOfBytes (bufByte t (off + 4 + 3)) (bufByte t (off + 4 + 2)) (bufByte t (off + 4 + 1))
    (bufByte t (off + 4))
  have l3' := byte_wordOfBytes (bufByte s (off + 4 + 3)) (bufByte s (off + 4 + 2)) (bufByte s (off + 4 + 1))
    (bufByte s (off + 4))
  have r3 := byte_wordOfBytes (bufByte t (off + 3)) (bufByte t (off + 2)) (bufByte t (off + 1)) (bufByte t off)
  have r3' := byte_wordOfBytes (bufByte s (off + 3)) (bufByte s (off + 2)) (bufByte s (off + 1)) (bufByte s off)
  unfold memRead at hl hr
  rw [hl] at l3
  rw [hr] at r3
  obtain rfl | rfl | rfl | rfl | rfl | rfl | rfl | rfl :
      o = off ∨ o = off + 1 ∨ o = off + 2 ∨ o = off + 3 ∨ o = off + 4 ∨ o = off + 4 + 1 ∨ o = off + 4 + 2 ∨
        o = off + 4 + 3 := by omega
  · exact r3.2.2.2.symm.trans r3'.2.2.2
  · exact r3.2.2.1.symm.trans r3'.2.2.1
  · exact r3.2.1.symm.trans r3'.2.1
  · exact r3.1.symm.trans r3'.1
  · exact l3.2.2.2.symm.trans l3'.2.2.2
  · exact l3.2.2.1.symm.trans l3'.2.2.1
  · exact l3.2.1.symm.trans l3'.2.1
  · exact l3.1.symm.trans l3'.1

end Sys2Proof.Machine
end

