-- ==== Sys2Proof/Laws/Codec.lean ====
section
/-! SUPPORT. What the building blocks of the codec commands do to the buffer (42_secure_area_codec.md R80, R83): which
bytes each leaves alone, and what the blocks hold after. -/

namespace Sys2Proof.Machine

section Xbuf

/-! `xbuf` writes `buf` alone. -/

variable (kt : KeyTable) (dir : Direction) (off : Nat) (s : State)

@[simp] theorem xbuf_kt : (xbuf kt dir off s).kt = s.kt := by rw [xbuf_eq]
@[simp] theorem xbuf_gc : (xbuf kt dir off s).gc = s.gc := by rw [xbuf_eq]
@[simp] theorem xbuf_d : (xbuf kt dir off s).d = s.d := by rw [xbuf_eq]
@[simp] theorem xbuf_l : (xbuf kt dir off s).l = s.l := by rw [xbuf_eq]
@[simp] theorem xbuf_r : (xbuf kt dir off s).r = s.r := by rw [xbuf_eq]
@[simp] theorem xbuf_salt0 : (xbuf kt dir off s).salt0 = s.salt0 := by rw [xbuf_eq]
@[simp] theorem xbuf_salt1 : (xbuf kt dir off s).salt1 = s.salt1 := by rw [xbuf_eq]
@[simp] theorem xbuf_status : (xbuf kt dir off s).status = s.status := by rw [xbuf_eq]
@[simp] theorem xbuf_cmdReg : (xbuf kt dir off s).cmdReg = s.cmdReg := by rw [xbuf_eq]
@[simp] theorem xbuf_draws : (xbuf kt dir off s).draws = s.draws := by rw [xbuf_eq]
@[simp] theorem xbuf_resetDraw : (xbuf kt dir off s).resetDraw = s.resetDraw := by rw [xbuf_eq]
@[simp] theorem xbuf_host : (xbuf kt dir off s).host = s.host := by rw [xbuf_eq]
@[simp] theorem xbuf_hostData : (xbuf kt dir off s).hostData = s.hostData := by rw [xbuf_eq]

end Xbuf

theorem xbuf_wf (kt : KeyTable) (dir : Direction) (off : Nat) {s : State} (h : s.buf.wf) :
    (xbuf kt dir off s).buf.wf :=
  writeBlockAt_wf _ _ h

theorem bufByte_xbuf_other {kt : KeyTable} {dir : Direction} {off p : Nat} (s : State)
    (h : p < off ∨ off + 8 ≤ p) : bufByte (xbuf kt dir off s) p = bufByte s p :=
  bufByte_writeBlockAt_other _ _ h

theorem blockAt_xbuf_same {kt : KeyTable} {dir : Direction} {off : Nat} (s : State) (h : off + 8 ≤ bufSize) :
    blockAt (xbuf kt dir off s) off = transform kt dir (blockAt s off) :=
  blockAt_writeBlockAt_same _ _ h

theorem blockAt_xbuf_other {kt : KeyTable} {dir : Direction} {off p : Nat} (s : State)
    (h : p + 8 ≤ off ∨ off + 8 ≤ p) : blockAt (xbuf kt dir off s) p = blockAt s p :=
  blockAt_writeBlockAt_other _ _ h

/-- Equal bytes are equal blocks. -/
theorem blockAt_of_bufByte {s t : State} {off : Nat}
    (h : ∀ o, off ≤ o → o < off + 8 → bufByte t o = bufByte s o) : blockAt t off = blockAt s off := by
  unfold blockAt memRead
  simp only [h (off + 4 + 3) (by omega) (by omega), h (off + 4 + 2) (by omega) (by omega),
    h (off + 4 + 1) (by omega) (by omega), h (off + 4) (by omega) (by omega), h (off + 3) (by omega) (by omega),
    h (off + 2) (by omega) (by omega), h (off + 1) (by omega) (by omega), h off (by omega) (by omega)]

/-- What a run of block transforms at offsets that are each a multiple of 8, strictly rising, does to one block. -/
theorem blockAt_foldl_xbuf (kt : KeyTable) (dir : Direction) (ks : List Nat) (s : State) (k : Nat)
    (hnodup : ks.Nodup) (hlt : ∀ j ∈ ks, 8 + 8 * j + 8 ≤ bufSize) :
    blockAt ((ks.map fun j => 8 + 8 * j).foldl (fun s off => xbuf kt dir off s) s) (8 + 8 * k) =
      if k ∈ ks then transform kt dir (blockAt s (8 + 8 * k)) else blockAt s (8 + 8 * k) := by
  induction ks generalizing s with
  | nil => simp
  | cons j rest ih =>
    obtain ⟨hj, hrest⟩ := List.nodup_cons.1 hnodup
    simp only [List.map_cons, List.foldl_cons]
    rw [ih _ hrest fun i hi => hlt i (List.mem_cons_of_mem _ hi)]
    by_cases hkj : k = j
    · subst hkj
      simp [hj, blockAt_xbuf_same s (hlt k List.mem_cons_self)]
    · rw [blockAt_xbuf_other s (by omega)]
      simp [hkj]

theorem bufByte_foldl_xbuf (kt : KeyTable) (dir : Direction) (offs : List Nat) (s : State) (p : Nat)
    (h : ∀ off ∈ offs, p < off ∨ off + 8 ≤ p) :
    bufByte (offs.foldl (fun s off => xbuf kt dir off s) s) p = bufByte s p := by
  induction offs generalizing s with
  | nil => rfl
  | cons off rest ih =>
    rw [List.foldl_cons, ih _ fun o ho => h o (List.mem_cons_of_mem _ ho),
      bufByte_xbuf_other s (h off List.mem_cons_self)]

theorem foldl_xbuf_eq (kt : KeyTable) (dir : Direction) (offs : List Nat) (s : State) :
    offs.foldl (fun s off => xbuf kt dir off s) s =
      { s with buf := (offs.foldl (fun s off => xbuf kt dir off s) s).buf } := by
  induction offs generalizing s with
  | nil => rfl
  | cons off rest ih => rw [List.foldl_cons, ih]; apply State.ext <;> simp

theorem foldl_xbuf_wf (kt : KeyTable) (dir : Direction) (offs : List Nat) {s : State} (h : s.buf.wf) :
    (offs.foldl (fun s off => xbuf kt dir off s) s).buf.wf := by
  induction offs generalizing s with
  | nil => exact h
  | cons off rest ih => exact ih (xbuf_wf _ _ _ h)

/-- What the strides do, as one record update. -/
theorem xstrides_eq (kt : KeyTable) (dir : Direction) (s : State) :
    xstrides kt dir s = { s with buf := (xstrides kt dir s).buf } := by
  unfold xstrides
  exact foldl_xbuf_eq _ _ _ _

section Xstrides

/-! `xstrides` writes `buf` alone. -/

variable (kt : KeyTable) (dir : Direction) (s : State)

@[simp] theorem xstrides_kt : (xstrides kt dir s).kt = s.kt := by rw [xstrides_eq]
@[simp] theorem xstrides_gc : (xstrides kt dir s).gc = s.gc := by rw [xstrides_eq]
@[simp] theorem xstrides_d : (xstrides kt dir s).d = s.d := by rw [xstrides_eq]
@[simp] theorem xstrides_l : (xstrides kt dir s).l = s.l := by rw [xstrides_eq]
@[simp] theorem xstrides_r : (xstrides kt dir s).r = s.r := by rw [xstrides_eq]
@[simp] theorem xstrides_salt0 : (xstrides kt dir s).salt0 = s.salt0 := by rw [xstrides_eq]
@[simp] theorem xstrides_salt1 : (xstrides kt dir s).salt1 = s.salt1 := by rw [xstrides_eq]
@[simp] theorem xstrides_status : (xstrides kt dir s).status = s.status := by rw [xstrides_eq]
@[simp] theorem xstrides_cmdReg : (xstrides kt dir s).cmdReg = s.cmdReg := by rw [xstrides_eq]
@[simp] theorem xstrides_draws : (xstrides kt dir s).draws = s.draws := by rw [xstrides_eq]
@[simp] theorem xstrides_resetDraw : (xstrides kt dir s).resetDraw = s.resetDraw := by rw [xstrides_eq]
@[simp] theorem xstrides_host : (xstrides kt dir s).host = s.host := by rw [xstrides_eq]
@[simp] theorem xstrides_hostData : (xstrides kt dir s).hostData = s.hostData := by rw [xstrides_eq]

end Xstrides

theorem xstrides_wf (kt : KeyTable) (dir : Direction) {s : State} (h : s.buf.wf) :
    (xstrides kt dir s).buf.wf := by
  unfold xstrides
  exact foldl_xbuf_wf _ _ _ h

/-- Each of the 255 strides is transformed once (R83). -/
theorem blockAt_xstrides (kt : KeyTable) (dir : Direction) (s : State) {k : Nat} (h : k < 255) :
    blockAt (xstrides kt dir s) (8 + 8 * k) = transform kt dir (blockAt s (8 + 8 * k)) := by
  unfold xstrides strideOffsets
  rw [blockAt_foldl_xbuf _ _ _ _ _ List.nodup_range
    (fun j hj => by have := List.mem_range.1 hj; simp only [bufSize]; omega), if_pos (List.mem_range.2 h)]

/-- The strides leave the header block, and everything beyond the region, alone (R83). -/
theorem bufByte_xstrides_other (kt : KeyTable) (dir : Direction) (s : State) {p : Nat} (h : p < 8 ∨ bufSize ≤ p) :
    bufByte (xstrides kt dir s) p = bufByte s p := by
  unfold xstrides
  refine bufByte_foldl_xbuf _ _ _ _ _ fun off ho => ?_
  simp only [strideOffsets, List.mem_map, List.mem_range] at ho
  obtain ⟨k, hk, rfl⟩ := ho
  simp only [bufSize] at h
  omega

theorem blockAt_xstrides_header (kt : KeyTable) (dir : Direction) (s : State) :
    blockAt (xstrides kt dir s) 0 = blockAt s 0 :=
  blockAt_of_bufByte fun _ _ ho => bufByte_xstrides_other _ _ _ (.inl (by omega))

/-- The header test is a test of the header block. -/
theorem headerIs_iff (w0 w1 : Word) (s : State) : headerIs w0 w1 s = true ↔ blockAt s 0 = ⟨w1, w0⟩ := by
  simp [headerIs, blockAt, and_comm]

/-- Writing the header is writing its block. -/
theorem writeHeader_eq_writeBlockAt (w0 w1 : Word) (s : State) : writeHeader w0 w1 s = writeBlockAt 0 ⟨w1, w0⟩ s :=
  rfl

/-- What a header write does, as one record update. -/
theorem writeHeader_eq (w0 w1 : Word) (s : State) :
    writeHeader w0 w1 s = { s with buf := (writeHeader w0 w1 s).buf } :=
  writeBlockAt_eq _ _ _

section WriteHeader

/-! `writeHeader` writes `buf` alone. -/

variable (w0 w1 : Word) (s : State)

@[simp] theorem writeHeader_kt : (writeHeader w0 w1 s).kt = s.kt := by rw [writeHeader_eq]
@[simp] theorem writeHeader_gc : (writeHeader w0 w1 s).gc = s.gc := by rw [writeHeader_eq]
@[simp] theorem writeHeader_d : (writeHeader w0 w1 s).d = s.d := by rw [writeHeader_eq]
@[simp] theorem writeHeader_l : (writeHeader w0 w1 s).l = s.l := by rw [writeHeader_eq]
@[simp] theorem writeHeader_r : (writeHeader w0 w1 s).r = s.r := by rw [writeHeader_eq]
@[simp] theorem writeHeader_salt0 : (writeHeader w0 w1 s).salt0 = s.salt0 := by rw [writeHeader_eq]
@[simp] theorem writeHeader_salt1 : (writeHeader w0 w1 s).salt1 = s.salt1 := by rw [writeHeader_eq]
@[simp] theorem writeHeader_status : (writeHeader w0 w1 s).status = s.status := by rw [writeHeader_eq]
@[simp] theorem writeHeader_cmdReg : (writeHeader w0 w1 s).cmdReg = s.cmdReg := by rw [writeHeader_eq]
@[simp] theorem writeHeader_draws : (writeHeader w0 w1 s).draws = s.draws := by rw [writeHeader_eq]
@[simp] theorem writeHeader_resetDraw : (writeHeader w0 w1 s).resetDraw = s.resetDraw := by rw [writeHeader_eq]
@[simp] theorem writeHeader_host : (writeHeader w0 w1 s).host = s.host := by rw [writeHeader_eq]
@[simp] theorem writeHeader_hostData : (writeHeader w0 w1 s).hostData = s.hostData := by rw [writeHeader_eq]

end WriteHeader

theorem blockAt_writeHeader (w0 w1 : Word) (s : State) : blockAt (writeHeader w0 w1 s) 0 = ⟨w1, w0⟩ :=
  blockAt_writeBlockAt_same _ _ (by decide)

theorem bufByte_writeHeader_other (w0 w1 : Word) (s : State) {p : Nat} (h : 8 ≤ p) :
    bufByte (writeHeader w0 w1 s) p = bufByte s p :=
  bufByte_writeBlockAt_other _ _ (.inr (by omega))

theorem writeHeader_wf (w0 w1 : Word) {s : State} (h : s.buf.wf) : (writeHeader w0 w1 s).buf.wf :=
  writeBlockAt_wf 0 ⟨w1, w0⟩ h

end Sys2Proof.Machine
end

