-- ==== Sys2Proof/Laws/Feistel.lean ====
section
/-! SUPPORT. What a round, a run of rounds and one transform of the regeneration leave (41_feistel_core.md R72,
40_key_table_derivation.md R63, R64). -/

namespace Sys2Proof.Machine

@[simp] theorem blockRound_right (kt : KeyTable) (x : Block) (i : Fin 18) :
    (blockRound kt x i).right = roundWord kt i ^^^ x.left := rfl

@[simp] theorem blockRound_left (kt : KeyTable) (x : Block) (i : Fin 18) :
    (blockRound kt x i).left = x.right ^^^ substitute kt (blockRound kt x i).right := rfl

@[simp] theorem runRounds_nil (kt : KeyTable) (x : Block) : runRounds kt [] x = x := rfl

@[simp] theorem runRounds_cons (kt : KeyTable) (i : Fin 18) (is : List (Fin 18)) (x : Block) :
    runRounds kt (i :: is) x = runRounds kt is (blockRound kt x i) := rfl

theorem enc_left (kt : KeyTable) (x : Block) :
    (enc kt x).left = (runRounds kt forwardRounds x).right ^^^ roundWord kt 17 := by unfold enc; rfl

theorem enc_right (kt : KeyTable) (x : Block) :
    (enc kt x).right = (runRounds kt forwardRounds x).left ^^^ roundWord kt 16 := by unfold enc; rfl

theorem dec_left (kt : KeyTable) (x : Block) :
    (dec kt x).left = (runRounds kt reverseRounds x).right ^^^ roundWord kt 0 := by unfold dec; rfl

theorem dec_right (kt : KeyTable) (x : Block) :
    (dec kt x).right = (runRounds kt reverseRounds x).left ^^^ roundWord kt 1 := by unfold dec; rfl

@[simp] theorem transform_forward (kt : KeyTable) (x : Block) : transform kt .forward x = enc kt x := rfl

@[simp] theorem transform_reverse (kt : KeyTable) (x : Block) : transform kt .reverse x = dec kt x := rfl

/-- Reading a table word by index is reading it as an element. -/
theorem KeyTable.get_eq (kt : KeyTable) (i : Fin 1042) : kt.get i = kt[i.val] := rfl

/-- Phase 1 of a mutation, word by word. -/
theorem mutatePhase1_get (kt : KeyTable) (d : Triple) (i : Fin 1042) :
    (mutatePhase1 kt d).get i = if i.val < 18 then kt.get i ^^^ xorWord d i.val else kt.get i := by
  rw [KeyTable.get_eq]
  unfold mutatePhase1
  exact Vector.getElem_ofFn i.isLt

@[simp] theorem regenerate_acc (g : Regeneration) (n : Fin 521) : (regenerate g n).acc = enc g.kt g.acc := rfl

/-- One transform of phase 2, word by word. -/
theorem regenerate_get (g : Regeneration) (n : Fin 521) (i : Fin 1042) :
    (regenerate g n).kt.get i =
      if i.val = 2 * n.val then (enc g.kt g.acc).left
      else if i.val = 2 * n.val + 1 then (enc g.kt g.acc).right
      else g.kt.get i := by
  rw [KeyTable.get_eq, KeyTable.get_eq]
  simp only [regenerate, Vector.getElem_set]
  split_ifs <;> first | rfl | omega

end Sys2Proof.Machine
end

