-- ==== Sys2Proof/WellFormed.lean ====
section
/-! DEFINITION. When the fields of a command word make a command (30_encoding.md R45, R46, R48), written apart from the
decoder. A term of `Instr` has no field that could be out of range: its one operand is a type of two values. -/

namespace Sys2Proof

/-- "`ZERO` must be 0" (R45). -/
def CommandFields.zeroClear (f : CommandFields) : Bool :=
  f.zero == 0

/-- The operation codes of R46. -/
def assignedOps : List (BitVec 8) :=
  [0x01, 0x02, 0x03, 0x04, 0x05, 0x08, 0x09, 0x0A, 0x10, 0x11, 0x20, 0x21]

/-- `OP` is an operation code of R46. -/
def CommandFields.opAssigned (f : CommandFields) : Bool :=
  assignedOps.contains f.op

/-- `DIR` "must be 0 in every other command" than `XFORM` (R45). -/
def CommandFields.dirAllowed (f : CommandFields) : Bool :=
  f.dir == 0 || f.op == 0x11

/-- A word with these fields is a command and not an illegal word (R48). -/
def CommandFields.wellFormed (f : CommandFields) : Bool :=
  f.zeroClear && f.opAssigned && f.dirAllowed

/-- Every term of `Instr` is a command: the types leave nothing to check. -/
def Instr.wellFormed : Instr → Bool
  | .seed => true
  | .derive => true
  | .mutate => true
  | .mixstep => true
  | .reshift => true
  | .init1 => true
  | .init2 => true
  | .init0 => true
  | .lookup => true
  | .xform _ => true
  | .sadec => true
  | .saenc => true

end Sys2Proof
end

