-- ==== Sys2Proof/Laws/PerInstr.lean ====
section
/-! SUPPORT. One fact of syntax per command: its command word, split into fields, is well formed (30_encoding.md R45, R46,
R48), by the check that is written apart from the encoder. -/

namespace Sys2Proof.Laws.EncodingFits

/-- The fields of a command's word pass the well-formedness check. -/
def Statement (i : Instr) : Prop := (fieldsOfWord (encode i)).wellFormed = true

theorem seed : Statement .seed := rfl
theorem derive : Statement .derive := rfl
theorem mutate : Statement .mutate := rfl
theorem mixstep : Statement .mixstep := rfl
theorem reshift : Statement .reshift := rfl
theorem init1 : Statement .init1 := rfl
theorem init2 : Statement .init2 := rfl
theorem init0 : Statement .init0 := rfl
theorem lookup : Statement .lookup := rfl
theorem xform (dir : Direction) : Statement (.xform dir) := by cases dir <;> rfl
theorem sadec : Statement .sadec := rfl
theorem saenc : Statement .saenc := rfl

end Sys2Proof.Laws.EncodingFits
end

