-- ==== Sys2Proof/Laws/Step.lean ====
section
/-! SUPPORT. Everything a step can do, once: the four cases of `step`, the cases of a host move, and the meaning each
command's arm has. -/

namespace Sys2Proof.Machine

/-- A step that goes on is one of four: nobody moved, the host moved, a command completed, an illegal word completed. -/
theorem step_cases {s t : State} (h : step s = .next t) :
    (nextMover s = .nobody ∧ t = s) ∨
    (∃ m rest, nextMover s = .host m rest ∧ hostMove m { s with host := rest } = .next t) ∨
    (nextMover s = .sequencer ∧ ∃ i, decodeWord s.cmdReg = .ok i ∧ exec i s = .next t) ∨
    (nextMover s = .sequencer ∧ (∃ e, decodeWord s.cmdReg = .error e) ∧ t = complete .illegalCommand s) := by
  unfold step at h
  split at h
  · injection h with h
    exact .inl ⟨‹_›, h.symm⟩
  · exact .inr (.inl ⟨_, _, ‹_›, h⟩)
  · unfold currentCommand at h
    split at h
    · exact .inr (.inr (.inl ⟨‹_›, _, ‹_›, h⟩))
    · injection h with h
      exact .inr (.inr (.inr ⟨‹_›, ⟨_, ‹_›⟩, h.symm⟩))

/-- A host move that goes on is one of four. -/
theorem hostMove_cases {m : HostMove} {s t : State} (h : hostMove m s = .next t) :
    (m = .reset ∧ t = applyReset s) ∨
    (m = .awaitDone ∧ t = pollDone s) ∨
    (∃ width off, m = .read width off ∧ accessListed width off = true ∧
      (s.status.busy = false ∨ isStatusRead m = true) ∧ t = { s with hostData := readData s width off }) ∨
    (∃ width off v, m = .write width off v ∧ accessListed width off = true ∧ s.status.busy = false ∧
      t = writeData width off v s) := by
  cases m with
  | reset => injection h with h; exact .inl ⟨rfl, h.symm⟩
  | awaitDone => injection h with h; exact .inr (.inl ⟨rfl, h.symm⟩)
  | read width off =>
    unfold hostMove at h
    dsimp only at h
    split_ifs at h with h1 h2
    injection h with h
    refine .inr (.inr (.inl ⟨width, off, rfl, h2, ?_, h.symm⟩))
    cases hb : s.status.busy <;> simp_all
  | write width off v =>
    unfold hostMove at h
    dsimp only at h
    split_ifs at h with h1 h2
    injection h with h
    exact .inr (.inr (.inr ⟨width, off, v, rfl, h2, by simpa using h1, h.symm⟩))

/-! The state each command's arm leaves, by its building blocks: cited instead of unfolding `exec`. -/

section Exec

variable (s : State)

theorem exec_seed : exec .seed s = .next (complete .ok (setTable seedTable s)) := rfl

theorem exec_derive : exec .derive s = .next (complete .ok (setTriple (deriveTriple s.gc) s)) := rfl

theorem exec_mutate : exec .mutate s = .next (complete .ok (loseBlock (setTable (mutateTable s.kt s.d) s))) := rfl

theorem exec_mixstep : exec .mixstep s = .next (complete .ok (loseBlock (setKey (mixStep ⟨s.kt, s.d⟩) s))) := rfl

theorem exec_reshift : exec .reshift s = .next (complete .ok (setTriple (reshiftTriple s.d) s)) := rfl

theorem exec_init1 : exec .init1 s = .next (complete .ok (loseBlock (setKey (init1 seedTable s.gc) s))) := rfl

theorem exec_init2 : exec .init2 s = .next (complete .ok (loseBlock (setKey (init2 ⟨s.kt, s.d⟩) s))) := rfl

theorem exec_init0 : exec .init0 s = .next (complete .ok (loseBlock
    (setSalt (saltWords (init1 seedTable s.gc).kt) (setKey (init1 seedTable s.gc) s)))) := rfl

theorem exec_lookup : exec .lookup s = .next (complete .ok (setBlock ⟨substitute s.kt s.l, s.r⟩ s)) := rfl

theorem exec_xform (dir : Direction) :
    exec (.xform dir) s = .next (complete .ok (setBlock (transform s.kt dir ⟨s.l, s.r⟩) s)) := rfl

theorem exec_sadec : exec .sadec s = .next (sadec seedTable s) := rfl

theorem exec_saenc : exec .saenc s = .next (saenc seedTable s) := rfl

end Exec

theorem writeWord_wf (off : Nat) (w : Word) {s : State} (h : s.buf.wf) : (writeWord off w s).buf.wf := by
  unfold writeWord
  split_ifs
  · exact memWrite_wf _ _ h
  · split <;> exact h

/-- Every listed write keeps the canonical form of the buffer. -/
theorem writeData_wf (width : AccessWidth) (off : Nat) (v : BitVec 64) {s : State} (h : s.buf.wf) :
    (writeData width off v s).buf.wf := by
  cases width with
  | w8 => exact setBufByte_wf _ _ h
  | w16 => exact setBufByte_wf _ _ (setBufByte_wf _ _ h)
  | w32 => exact writeWord_wf _ _ h
  | w64 => exact h

theorem sadecHeader_wf (seed : KeyTable) {s : State} (h : s.buf.wf) : (sadecHeader seed s).buf.wf :=
  xbuf_wf _ _ _ (xbuf_wf _ _ _ h)

theorem sadecStrides_wf (seed : KeyTable) {s : State} (h : s.buf.wf) : (sadecStrides seed s).buf.wf :=
  xstrides_wf _ _ (writeHeader_wf _ _ h)

theorem saencBody_wf (seed : KeyTable) {s : State} (h : s.buf.wf) : (saencBody seed s).buf.wf :=
  xbuf_wf _ _ _ (xbuf_wf _ _ _ (writeHeader_wf _ _ (xstrides_wf _ _ h)))

end Sys2Proof.Machine
end

