-- ==== Sys2Proof/Tests/Slice0.lean ====
section
/-! SUPPORT. Tests, each about one step or one operation, with the results taken from the spec (95_test_vectors.md), and a
witness that meets the hypotheses of each obligation that has some. -/

namespace Sys2Proof.Tests

open Sys2Proof.Machine Sys2Proof.Statements

/-! ### Decoding (30_encoding.md sections 1 to 4) -/

/-- The derivation family, `ZERO`, `DIR` and `OP` written out (R45, R46). -/
theorem test_decode_derivation :
    decodeWord ((0 : BitVec 23) ++ (0 : BitVec 1) ++ (0x01 : BitVec 8)) = .ok .seed ∧
    decodeWord ((0 : BitVec 23) ++ (0 : BitVec 1) ++ (0x02 : BitVec 8)) = .ok .derive ∧
    decodeWord ((0 : BitVec 23) ++ (0 : BitVec 1) ++ (0x03 : BitVec 8)) = .ok .mutate ∧
    decodeWord ((0 : BitVec 23) ++ (0 : BitVec 1) ++ (0x04 : BitVec 8)) = .ok .mixstep ∧
    decodeWord ((0 : BitVec 23) ++ (0 : BitVec 1) ++ (0x05 : BitVec 8)) = .ok .reshift ∧
    decodeWord ((0 : BitVec 23) ++ (0 : BitVec 1) ++ (0x08 : BitVec 8)) = .ok .init1 ∧
    decodeWord ((0 : BitVec 23) ++ (0 : BitVec 1) ++ (0x09 : BitVec 8)) = .ok .init2 ∧
    decodeWord ((0 : BitVec 23) ++ (0 : BitVec 1) ++ (0x0A : BitVec 8)) = .ok .init0 := by decide

/-- The round processor (R46, R47). -/
theorem test_decode_round_processor :
    decodeWord ((0 : BitVec 23) ++ (0 : BitVec 1) ++ (0x10 : BitVec 8)) = .ok .lookup ∧
    decodeWord ((0 : BitVec 23) ++ (0 : BitVec 1) ++ (0x11 : BitVec 8)) = .ok (.xform .reverse) ∧
    decodeWord ((0 : BitVec 23) ++ (1 : BitVec 1) ++ (0x11 : BitVec 8)) = .ok (.xform .forward) := by decide

/-- The codec (R46). -/
theorem test_decode_codec :
    decodeWord ((0 : BitVec 23) ++ (0 : BitVec 1) ++ (0x20 : BitVec 8)) = .ok .sadec ∧
    decodeWord ((0 : BitVec 23) ++ (0 : BitVec 1) ++ (0x21 : BitVec 8)) = .ok .saenc := by decide

/-- V-ILL-1 to V-ILL-10: illegal words, each refused under its name. -/
theorem test_decode_illegal :
    decodeWord 0x00000000 = .error (.unassignedOperation 0x00) ∧
    decodeWord 0x00000006 = .error (.unassignedOperation 0x06) ∧
    decodeWord 0x00000101 = .error .directionWithoutXform ∧ decodeWord 0x00000211 = .error .zeroFieldNotClear ∧
    decodeWord 0x00000311 = .error .zeroFieldNotClear ∧ decodeWord 0x80000001 = .error .zeroFieldNotClear ∧
    decodeWord 0x00010011 = .error .zeroFieldNotClear ∧
    decodeWord 0x00000012 = .error (.unassignedOperation 0x12) ∧
    decodeWord 0x00000022 = .error (.unassignedOperation 0x22) ∧
    decodeWord 0x000000FF = .error (.unassignedOperation 0xFF) := by decide

/-- The words of the opcode table through the table's numbering, a word that is none, and too few bytes. -/
theorem test_decode_table_word :
    decodeTableWord 32 0x00000001 = some .seed ∧ decodeTableWord 32 0x00000111 = some (.xform .forward) ∧
    decodeTableWord 32 0x00000021 = some .saenc ∧ decodeTableWord 32 0x00000006 = none ∧
    decode [0x01, 0x00, 0x00] = .error (.truncated 3) ∧
    decode [0x11, 0x01, 0x00, 0x00, 0x05] = .ok (.xform .forward, [0x05]) := by decide

/-! ### Well-formedness: each check refuses an ill-formed term (R45, R48) -/

theorem test_wellFormed_accepts : (CommandFields.mk 0x11 1 0).wellFormed = true := by decide

theorem test_wellFormed_refuses_zero_field :
    (CommandFields.mk 0x11 1 1).zeroClear = false ∧ (CommandFields.mk 0x11 1 1).wellFormed = false := by decide

theorem test_wellFormed_refuses_unassigned_op :
    (CommandFields.mk 0x06 0 0).opAssigned = false ∧ (CommandFields.mk 0x06 0 0).wellFormed = false := by decide

theorem test_wellFormed_refuses_direction :
    (CommandFields.mk 0x01 1 0).dirAllowed = false ∧ (CommandFields.mk 0x01 1 0).wellFormed = false := by decide

/-! ### Tables that are easy to evaluate

A key table given by a function of the word's number, and what the operations make of it, so that a test evaluates
arithmetic and not a vector of 1042 words. -/

/-- The table whose word `i` is `f i`. -/
def tableOf (f : Nat → Word) : KeyTable := Vector.ofFn fun i => f i.val

theorem tableOf_get (f : Nat → Word) (i : Fin 1042) : (tableOf f).get i = f i.val := by
  rw [KeyTable.get_eq]
  exact Vector.getElem_ofFn i.isLt

/-- `SEED_T` of 95_test_vectors.md: word `i` is `(i + 1) * 0x9E3779B9`. -/
def seedT (i : Nat) : Word := BitVec.ofNat 32 ((i + 1) * 0x9E3779B9)

/-- `SEED_Z` of 95_test_vectors.md. -/
def seedZ (_ : Nat) : Word := 0

/-- `F` over a table given by a function. -/
def lookupOf (f : Nat → Word) (v : Word) : Word :=
  f (18 + 256 * 3 + (byte0 v).toNat) +
    (f (18 + 256 * 2 + (byte1 v).toNat) ^^^ (f (18 + 256 * 1 + (byte2 v).toNat) + f (18 + 256 * 0 + (byte3 v).toNat)))

theorem substitute_tableOf (f : Nat → Word) (v : Word) : substitute (tableOf f) v = lookupOf f v := by
  unfold substitute substWord lookupOf
  simp only [tableOf_get]
  rfl

/-- A round over a table given by a function. -/
def roundOf (f : Nat → Word) (x : Block) (i : Fin 18) : Block :=
  let c := f i.val ^^^ x.left
  ⟨x.right ^^^ lookupOf f c, c⟩

theorem blockRound_tableOf (f : Nat → Word) : blockRound (tableOf f) = roundOf f := by
  funext x i
  simp only [blockRound, roundOf, substitute_tableOf, roundWord, tableOf_get]

/-- `ENC` over a table given by a function. -/
def encOf (f : Nat → Word) (x : Block) : Block :=
  let y := forwardRounds.foldl (roundOf f) x
  ⟨y.right ^^^ f 17, y.left ^^^ f 16⟩

theorem enc_tableOf (f : Nat → Word) (x : Block) : enc (tableOf f) x = encOf f x := by
  unfold enc runRounds encOf roundWord
  simp only [blockRound_tableOf, tableOf_get]
  rfl

/-- `DEC` over a table given by a function. -/
def decOf (f : Nat → Word) (x : Block) : Block :=
  let y := reverseRounds.foldl (roundOf f) x
  ⟨y.right ^^^ f 0, y.left ^^^ f 1⟩

theorem dec_tableOf (f : Nat → Word) (x : Block) : dec (tableOf f) x = decOf f x := by
  unfold dec runRounds decOf roundWord
  simp only [blockRound_tableOf, tableOf_get]
  rfl

theorem mutatePhase1_tableOf (f : Nat → Word) (d : Triple) (i : Fin 1042) :
    (mutatePhase1 (tableOf f) d).get i = if i.val < 18 then f i.val ^^^ xorWord d i.val else f i.val := by
  rw [mutatePhase1_get, tableOf_get]

/-- A table word by word overwritten as one transform of the regeneration overwrites it. -/
def overwrite (f : Nat → Word) (n : Nat) (x : Block) (i : Nat) : Word :=
  if i = 2 * n then x.left else if i = 2 * n + 1 then x.right else f i

theorem regenerate_tableOf (f : Nat → Word) (x : Block) (n : Fin 521) :
    regenerate ⟨tableOf f, x⟩ n = ⟨tableOf (overwrite f n.val (encOf f x)), encOf f x⟩ := by
  have hkt : (regenerate ⟨tableOf f, x⟩ n).kt = tableOf (overwrite f n.val (encOf f x)) := by
    refine Vector.ext fun i hi => ?_
    have h := regenerate_get ⟨tableOf f, x⟩ n ⟨i, hi⟩
    have h' := tableOf_get (overwrite f n.val (encOf f x)) ⟨i, hi⟩
    rw [KeyTable.get_eq] at h h'
    rw [h, h', tableOf_get, enc_tableOf]
    rfl
  have hacc : (regenerate ⟨tableOf f, x⟩ n).acc = encOf f x := by rw [regenerate_acc, enc_tableOf]
  rw [← hkt, ← hacc]

/-! ### Instructions, one small case each -/

/-- An idle state whose table is given by a function. -/
def stateOf (f : Nat → Word) (d : Triple) (x : Block) : State :=
  { State.reset with kt := tableOf f, d := d, l := x.left, r := x.right }

/-- The triple of V-MUT-1 and V-MIX-1. -/
def testTriple : Triple := ⟨0x11223344, 0x55667788, 0x99AABBCC⟩

/-- V-LK-1. -/
theorem test_lookup : ∃ t, exec .lookup (stateOf seedT testTriple ⟨0x01020304, 0x89ABCDEF⟩) = .next t ∧
    t.l = 0x6754EAE6 ∧ t.r = 0x89ABCDEF ∧ statusWord t.status = 0x00000002 := by
  refine ⟨_, exec_lookup _, ?_, rfl, rfl⟩
  show substitute (tableOf seedT) 0x01020304 = 0x6754EAE6
  rw [substitute_tableOf]
  decide +kernel

/-- V-F-1 (the inner addition wraps) and V-F-9 (the outer one does, the inner does not). -/
theorem test_lookup_wraps :
    substitute (tableOf seedT) 0x00000000 = 0x032FE488 ∧ substitute (tableOf seedT) 0xFFFF0000 = 0x2FB6677A := by
  rw [substitute_tableOf, substitute_tableOf]
  decide +kernel

/-- V-XF-4, forward. -/
theorem test_xform_forward : ∃ t, exec (.xform .forward) (stateOf seedT testTriple ⟨0x01234567, 0x89ABCDEF⟩) = .next t ∧
    (⟨t.l, t.r⟩ : Block) = ⟨0x1A261A6B, 0x791D3CFF⟩ := by
  refine ⟨_, exec_xform _ _, ?_⟩
  show enc (tableOf seedT) ⟨0x01234567, 0x89ABCDEF⟩ = _
  rw [enc_tableOf]
  decide +kernel

/-- V-XF-4, reverse. -/
theorem test_xform_reverse : ∃ t, exec (.xform .reverse) (stateOf seedT testTriple ⟨0x01234567, 0x89ABCDEF⟩) = .next t ∧
    (⟨t.l, t.r⟩ : Block) = ⟨0xFF3A3E60, 0x149AEC91⟩ := by
  refine ⟨_, exec_xform _ _, ?_⟩
  show dec (tableOf seedT) ⟨0x01234567, 0x89ABCDEF⟩ = _
  rw [dec_tableOf]
  decide +kernel

/-- `SEED` writes the seed table over whatever table was there, and no status but done (R60). -/
theorem test_seed : ∃ t, exec .seed (stateOf seedT testTriple ⟨1, 2⟩) = .next t ∧ t.kt = Config.seedTable ∧
    t.d = testTriple ∧ t.l = 1 ∧ t.r = 2 ∧ statusWord t.status = 0x00000002 :=
  ⟨_, exec_seed _, (rfl), (rfl), (rfl), (rfl), (rfl)⟩

/-- V-DER-2: bit 31 does not smear, bit 31 and bit 0 are lost. -/
theorem test_derive : ∃ t, exec .derive { State.reset with gc := 0x80000001 } = .next t ∧
    t.d = ⟨0x80000001, 0x40000000, 0x00000002⟩ := ⟨_, exec_derive _, by decide⟩

/-- V-RSH-1. -/
theorem test_reshift : ∃ t, exec .reshift { State.reset with d := ⟨0x00000001, 0x80000000, 0x00000001⟩ } = .next t ∧
    t.d = ⟨0x00000001, 0x00000000, 0x00000000⟩ := ⟨_, exec_reshift _, by decide⟩

/-- V-MUT-1, phase 1: even round words `0x44332211`, odd ones `0x88776655`, the first substitution word still zero. -/
theorem test_mutate_phase1 :
    (mutatePhase1 (tableOf seedZ) testTriple).get 0 = 0x44332211 ∧
    (mutatePhase1 (tableOf seedZ) testTriple).get 17 = 0x88776655 ∧
    (mutatePhase1 (tableOf seedZ) testTriple).get 18 = 0x00000000 := by
  rw [mutatePhase1_tableOf, mutatePhase1_tableOf, mutatePhase1_tableOf]
  decide +kernel

/-- The round words of V-MUT-1 after phase 1. -/
def phase1Words (i : Nat) : Word := if 18 ≤ i then 0 else if i % 2 = 0 then 0x44332211 else 0x88776655

/-- V-MUT-1, phase 2: the first three transforms, which a regeneration from a copy of the table would get wrong. -/
theorem test_mutate_in_place :
    ∃ g, regenerate (regenerate (regenerate ⟨tableOf phase1Words, ⟨0, 0⟩⟩ 0) 1) 2 = g ∧
      g.kt.get 0 = 0x88776655 ∧ g.kt.get 1 = 0x44332211 ∧ g.kt.get 2 = 0 ∧ g.kt.get 3 = 0 ∧
      g.kt.get 4 = 0xCC444444 ∧ g.kt.get 5 = 0xCC444444 := by
  refine ⟨_, rfl, ?_⟩
  rw [regenerate_tableOf, regenerate_tableOf, regenerate_tableOf]
  simp only [tableOf_get]
  decide +kernel

/-- V-MIX-2: the triple conditioned over a table that is not zero. -/
theorem test_mixstep : ∃ t, exec .mixstep (stateOf seedT testTriple ⟨0, 0⟩) = .next t ∧
    t.d = ⟨0x45F379FA, 0x90E81A79, 0xE88EF7E0⟩ := by
  refine ⟨_, exec_mixstep _, ?_⟩
  show conditionTriple (tableOf seedT) testTriple = _
  unfold conditionTriple
  simp only [enc_tableOf]
  decide +kernel

/-- `INIT2` re-shifts the triple before it conditions it: on `D = (0, 0x80000000, 1)` over `SEED_T` it leaves the triple the
first mix step of V-INIT-3 leaves on `(0, 0, 0)`. -/
theorem test_init2 : ∃ t, exec .init2 (stateOf seedT ⟨0, 0x80000000, 1⟩ ⟨0, 0⟩) = .next t ∧
    t.d = ⟨0xA18EEE4B, 0x0D81BB91, 0xA386C59A⟩ := by
  refine ⟨_, exec_init2 _, ?_⟩
  show conditionTriple (tableOf seedT) (reshiftTriple ⟨0, 0x80000000, 1⟩) = _
  unfold conditionTriple
  simp only [enc_tableOf]
  decide +kernel

/-- `INIT1` starts from the seed table and `GC`, whatever table and triple were there, and keeps `GC` and `SALT` (R67). -/
theorem test_init1 : ∃ t, exec .init1 { stateOf seedT testTriple ⟨1, 2⟩ with gc := 5, salt0 := 6, salt1 := 7 } = .next t ∧
    t.kt = (init1 Config.seedTable 5).kt ∧ t.gc = 5 ∧ t.salt0 = 6 ∧ t.salt1 = 7 := by
  refine ⟨_, exec_init1 _, ?_, ?_, ?_, ?_⟩ <;> simp [seedTable, stateOf]

/-- `INIT0` writes the salt words of the table it leaves (R69). -/
theorem test_init0 : ∃ t, exec .init0 { stateOf seedT testTriple ⟨1, 2⟩ with gc := 5 } = .next t ∧
    t.salt1 = (Config.saltStep t.kt).2 := by
  refine ⟨_, exec_init0 _, ?_⟩
  simp [saltWords]

/-- Bytes of a buffer by ascending offset from `off`. -/
def bytesAt (off : Nat) : List Byte → Memory
  | [] => []
  | b :: rest => (off, b) :: bytesAt (off + 1) rest

/-- `XBUF` over `SEED_T` on the bytes of V-XF-4: little-endian in and out, the left half high (R32, R80). -/
theorem test_xbuf :
    ∃ t, xbuf (tableOf seedT) .forward 8
        { State.reset with buf := bytesAt 8 [0xEF, 0xCD, 0xAB, 0x89, 0x67, 0x45, 0x23, 0x01] } = t ∧
      t.buf = bytesAt 8 [0xFF, 0x3C, 0x1D, 0x79, 0x6B, 0x1A, 0x26, 0x1A] := by
  refine ⟨_, rfl, ?_⟩
  unfold xbuf
  rw [show blockAt { State.reset with buf := bytesAt 8 [0xEF, 0xCD, 0xAB, 0x89, 0x67, 0x45, 0x23, 0x01] } 8 =
    ⟨0x01234567, 0x89ABCDEF⟩ by decide +kernel, transform_forward, enc_tableOf]
  decide +kernel

/-- The states of V-SA-6: `BUF` starts with these bytes. -/
def headerState (bs : List Byte) : State := { State.reset with gc := 0x45444D41, buf := bytesAt 0 bs }

/-- V-SA-6: a header with one sentinel word only is refused with code 3, and so is the byte list of the source taken at
ascending offsets. -/
theorem test_saenc_precondition :
    exec .saenc (headerState [0xFF, 0xDE, 0xFF, 0xE7, 0, 0, 0, 0]) =
      .next { headerState [0xFF, 0xDE, 0xFF, 0xE7, 0, 0, 0, 0] with status := ⟨false, true, 3⟩ } ∧
    exec .saenc (headerState [0xE7, 0xFF, 0xDE, 0xFF, 0xE7, 0xFF, 0xDE, 0xFF]) =
      .next { headerState [0xE7, 0xFF, 0xDE, 0xFF, 0xE7, 0xFF, 0xDE, 0xFF] with status := ⟨false, true, 3⟩ } := by
  constructor
  all_goals
    rw [exec_saenc]
    unfold saenc
    rw [if_neg (by decide +kernel)]
    rfl

/-- A header with both sentinel words is accepted (R82). -/
theorem test_saenc_accepts : ∃ t,
    exec .saenc (headerState [0xFF, 0xDE, 0xFF, 0xE7, 0xFF, 0xDE, 0xFF, 0xE7]) = .next t ∧
      statusWord t.status = 0x00000002 := by
  refine ⟨_, exec_saenc _, ?_⟩
  unfold saenc
  rw [if_pos (by decide +kernel)]
  rfl

/-! ### Steps, the host and reset -/

/-- A step gave a next state. -/
def wentOn (o : Host.Outcome State Fault Refusal) : Bool :=
  match o with
  | .next _ => true
  | .fault _ => false
  | .refused _ => false

/-- Every row of the opcode table runs as the first command after reset, and a word that is none completes. -/
theorem test_every_row_runs_after_reset :
    ∀ w ∈ [0x1, 0x2, 0x3, 0x4, 0x5, 0x8, 0x9, 0xA, 0x10, 0x11, 0x111, 0x20, 0x21, 0x6],
      wentOn (step (State.reset.withFetchWord 32 w)) = true := by decide

/-- V-ILL-4: an illegal word completes with `STATUS = 0x00000042` and changes nothing else. -/
theorem test_illegal_word_completes :
    step (State.reset.withFetchWord 32 0x211) =
      .next { State.reset with cmdReg := 0x211, status := ⟨false, true, 4⟩ } ∧
    statusWord ⟨false, true, 4⟩ = 0x00000042 := ⟨rfl, rfl⟩

/-- `WR GC` and then `DERIVE` by the script, in four steps. -/
theorem test_script_derive :
    ∃ t, runSteps 4 { State.reset with host := wrGc 0x45444D41 ++ runCommand .derive } = .next t ∧
      t.d = ⟨0x45444D41, 0x22A226A0, 0x8A889A82⟩ ∧ t.host = [] ∧ t.hostData = 2 :=
  ⟨_, rfl, by decide, rfl, by decide⟩

/-- A write of `GC` while a command runs is refused (R26). -/
theorem test_write_while_busy :
    step { State.reset with status := ⟨true, false, 0⟩, host := wrGc 5 } = .refused .hostAccessWhileBusy := rfl

/-! ### Witnesses

For each obligation with hypotheses, a concrete state and operands that meet all of them together, at the ends of each
clause's range. -/

/-- An idle core with these moves of the host pending. -/
def idleWith (ms : List HostMove) : State := { State.reset with host := ms }

/-- A core that runs a command, with these moves of the host pending. -/
def busyWith (ms : List HostMove) : State := { State.reset with status := ⟨true, false, 0⟩, host := ms }

/-- A core that is to run this word, with nothing pending. -/
def aboutToRun (w : Word) : State := { State.reset with status := ⟨true, false, 0⟩, cmdReg := w }

theorem witness_OpcodeRowsSelectByMaskAndMatch :
    ∀ row ∈ opcodeRows, row.1 &&& row.2.1 = row.1 ∧ (0x111 : Word) &&& 0xFFFFFEFF = 0x11 := by decide

/-- The first and the last word of each range of illegal words. -/
theorem witness_IllegalWordsCompleteWithIllegalCommand :
    (∀ w : Word, sequencerToMove (aboutToRun w) ∧ (aboutToRun w).cmdReg = w) ∧
    (∃ e, decodeWord 0x00 = .error e) ∧ (∃ e, decodeWord 0x06 = .error e) ∧ (∃ e, decodeWord 0x07 = .error e) ∧
    (∃ e, decodeWord 0x0B = .error e) ∧ (∃ e, decodeWord 0x0F = .error e) ∧ (∃ e, decodeWord 0x12 = .error e) ∧
    (∃ e, decodeWord 0x1F = .error e) ∧ (∃ e, decodeWord 0x22 = .error e) ∧ (∃ e, decodeWord 0xFF = .error e) ∧
    (∃ e, decodeWord 0x201 = .error e) ∧ (∃ e, decodeWord 0x80000011 = .error e) ∧
    (∃ e, decodeWord 0x101 = .error e) :=
  ⟨fun _ => ⟨⟨rfl, .inl rfl⟩, rfl⟩, ⟨_, rfl⟩, ⟨_, rfl⟩, ⟨_, rfl⟩, ⟨_, rfl⟩, ⟨_, rfl⟩, ⟨_, rfl⟩, ⟨_, rfl⟩, ⟨_, rfl⟩,
    ⟨_, rfl⟩, ⟨_, rfl⟩, ⟨_, rfl⟩, ⟨_, rfl⟩⟩

theorem witness_DecodeAndEncodeAgree :
    decodeWord 0x111 = .ok (.xform .forward) ∧ decode [0x20, 0x00, 0x00, 0x00, 0xFF] = .ok (.sadec, [0xFF]) := by decide

theorem witness_BufferWordsAreLittleEndian :
    0x7FC + 4 ≤ 0x800 ∧ memRead (memWrite 0x7FC 0x11223344 State.reset) 0x7FC = 0x11223344 ∧
      bufByte (memWrite 0x7FC 0x11223344 State.reset) (0x7FC + 3) = 0x11 := by decide +kernel

theorem witness_BlockIsLittleEndianWithLeftHigh :
    0x7F8 + 8 ≤ 0x800 ∧ 0x7F8 % 8 = 0 ∧ 0 + 8 ≤ 0x800 ∧
      (blockAt (writeBlockAt 0x7F8 ⟨1, 2⟩ State.reset) 0x7F8).left = 1 := by decide +kernel

theorem witness_ResetLeavesTheCoreIdle :
    (busyWith [.reset, .awaitDone]).host = .reset :: [.awaitDone] := rfl

theorem witness_StepRunsTheDecodedCommand :
    sequencerToMove (aboutToRun 0x10) ∧ decodeWord (aboutToRun 0x10).cmdReg = .ok .lookup ∧
      sequencerToMove { aboutToRun 0x20 with host := [.awaitDone] } := ⟨⟨rfl, .inl rfl⟩, rfl, ⟨rfl, .inr ⟨[], rfl⟩⟩⟩

theorem witness_CmdWriteStartsTheCommand :
    (idleWith [.write .w32 0 5]).status.busy = false ∧ (idleWith [.write .w32 0 5]).host = .write .w32 0x0000 5 :: [] ∧
      (idleWith [.read .w32 0]).host = .read .w32 0x0000 :: [] := ⟨rfl, rfl, rfl⟩

/-- The five clauses, in order. -/
theorem witness_HostOnlyReadsStatusWhileBusy :
    ((busyWith [.read .w32 0x0004]).status.busy = true ∧ (busyWith [.read .w32 4]).host = .read .w32 0x0004 :: []) ∧
    ((busyWith [.read .w32 0x0008]).host = .read .w32 0x0008 :: [] ∧
      ¬(AccessWidth.w32 = .w32 ∧ (0x0008 : Nat) = 0x0004)) ∧
    (busyWith [.write .w32 0x0004 0]).host = .write .w32 0x0004 0 :: [] ∧
    ((idleWith [.read .w64 0x0010]).status.busy = false ∧ listedAccess .w64 0x0010 ∧ listedAccess .w8 0x37FF ∧
      listedAccess .w16 0x37FE ∧ listedAccess .w32 0x3800) ∧
    ((idleWith [.write .w8 0x3000 1]).host = .write .w8 0x3000 1 :: [] ∧ listedAccess .w8 0x3000) := by
  refine ⟨⟨rfl, rfl⟩, ⟨rfl, by decide⟩, rfl, ⟨rfl, ?_, ?_, ?_, ?_⟩, rfl, ?_⟩ <;> unfold listedAccess <;> decide

/-- The ends of every range of the register map: the read or write of each is pending in an idle state, and goes on. -/
theorem witness_HostRegisterMap :
    ∀ off ∈ [0x0000, 0x0004, 0x0008, 0x000C, 0x0010, 0x0014, 0x0018, 0x001C, 0x0020, 0x0024, 0x0028, 0x002C, 0x0FFC,
        0x1000, 0x1000 + 4 * 1041, 0x2048, 0x2FFC, 0x3000, 0x3000 + 0x7FC, 0x3800],
      (idleWith [.read .w32 off]).status.busy = false ∧ off % 4 = 0 ∧
        wentOn (step (idleWith [.read .w32 off])) = true ∧ wentOn (step (idleWith [.write .w32 off 5])) = true := by
  decide

/-- Its byte clauses, at the last byte of the buffer. -/
theorem witness_HostRegisterMap_bytes :
    0x7FF < 0x800 ∧ (idleWith [.read .w8 (0x3000 + 0x7FF)]).status.busy = false ∧
      (idleWith [.read .w8 (0x3000 + 0x7FF)]).host = .read .w8 (0x3000 + 0x7FF) :: [] ∧
      (idleWith [.write .w8 (0x3000 + 0x7FF) 5]).host = .write .w8 (0x3000 + 0x7FF) 5 :: [] :=
  ⟨by decide, rfl, rfl, rfl⟩

/-- The six clauses at the ends of their ranges, and accesses beside them that R35 does not list. -/
theorem witness_HostAccessWidths :
    (0x7FF < 0x800 ∧ 0x7FF % widthBytes .w8 = 0 ∧ 0x7FE % widthBytes .w16 = 0 ∧ 0x7FC % widthBytes .w32 = 0) ∧
    (∀ wo ∈ [(AccessWidth.w8, 0x3000 + 0), (.w8, 0x3000 + 0x7FF), (.w16, 0x3000 + 0x7FE), (.w32, 0x3000 + 0x7FC),
        (.w64, 0x0010)],
      wentOn (step (idleWith [.read wo.1 wo.2])) = true ∧ wentOn (step (idleWith [.write wo.1 wo.2 1])) = true) ∧
    ¬listedAccess .w8 0x2FFF ∧ ¬listedAccess .w8 0x3800 ∧ ¬listedAccess .w16 0x3001 ∧ ¬listedAccess .w32 0x3002 ∧
    ¬listedAccess .w64 0x3000 ∧
    step (idleWith [.read .w8 0x3800]) = .refused .hostAccessNotListed ∧
    step (idleWith [.write .w8 0x2FFF 1]) = .refused .hostAccessNotListed := by
  refine ⟨by decide, by decide, ?_, ?_, ?_, ?_, ?_, rfl, rfl⟩ <;> unfold listedAccess <;> decide

theorem witness_Blk64AliasesLAndR :
    (idleWith [.write .w64 0x0010 1, .read .w64 0x0010]).status.busy = false ∧
    (idleWith [.write .w64 0x0010 1, .read .w64 0x0010]).host = .write .w64 0x0010 1 :: .read .w64 0x0010 :: [] ∧
    (idleWith [.write .w32 0x0014 1, .read .w64 0x0010]).host = .write .w32 0x0014 1 :: .read .w64 0x0010 :: [] :=
  ⟨rfl, rfl, rfl⟩

theorem witness_StepGoesOnUnlessTheHostBreaksProtocol :
    nextMover (idleWith [.read .w32 0x0008]) = .host (.read .w32 0x0008) [] ∧
    hostMayMake (idleWith [.read .w32 0x0008]) (.read .w32 0x0008) = true ∧
    hostMayMake (busyWith [.read .w32 0x0008]) (.read .w32 0x0008) = false := by decide

theorem witness_HostNeverWritesTableSaltOrStatus :
    ∃ t, nextMover (idleWith [.write .w32 0x1000 7]) = .host (.write .w32 0x1000 7) [] ∧
      step (idleWith [.write .w32 0x1000 7]) = .next t ∧ t = State.reset ∧
      ∀ x : BitVec 64, HostMove.write .w32 0x1000 7 ≠ .write .w32 0x0000 x := ⟨_, rfl, rfl, rfl, by simp⟩

theorem witness_CommandStatementRunsToDone :
    (idleWith (runCommand .seed)).status.busy = false ∧ (idleWith (runCommand .seed)).host = runCommand .seed ++ [] ∧
    (idleWith (runCommand .saenc ++ rdBlk64)).host = runCommand .saenc ++ rdBlk64 := ⟨rfl, rfl, rfl⟩

theorem witness_ScriptSeedMixgcLeavesWhatInit1Leaves : State.reset.status.busy = false := rfl

/-- Two states with the same `L` whose tables differ in the round words alone, with the substitution words all 0. -/
theorem witness_LookupReadsSubstitutionWordsOnly :
    (stateOf phase1Words testTriple ⟨1, 2⟩).l = (stateOf seedZ testTriple ⟨1, 2⟩).l ∧
    (∀ i, 18 ≤ i → i < 1042 →
      ktWord (stateOf phase1Words testTriple ⟨1, 2⟩).kt i = ktWord (stateOf seedZ testTriple ⟨1, 2⟩).kt i) ∧
    ktWord (stateOf phase1Words testTriple ⟨1, 2⟩).kt 17 ≠ ktWord (stateOf seedZ testTriple ⟨1, 2⟩).kt 17 ∧
    (∀ i, 18 ≤ i → i < 1042 → ktWord (stateOf seedZ testTriple ⟨1, 2⟩).kt i = 0) := by
  refine ⟨rfl, fun i h h' => ?_, ?_, fun i _ h' => ?_⟩
  · simp only [ktWord, dif_pos h', stateOf, tableOf_get, phase1Words, seedZ, if_pos h]
  · simp only [ktWord, stateOf, tableOf_get]
    decide
  · simp only [ktWord, dif_pos h', stateOf, tableOf_get, seedZ]

/-- A table of zeros. -/
theorem zeroTable_word {i : Nat} (h : i < 1042) : ktWord (tableOf seedZ) i = 0 := by
  simp only [ktWord, dif_pos h, tableOf_get, seedZ]

theorem witness_XformRunsSixteenRounds :
    ∀ i, i < 1042 → ktWord (stateOf seedZ testTriple ⟨1, 2⟩).kt i = 0 := fun _ h => zeroTable_word h

theorem witness_Enc64TransformsTheBlockView :
    (idleWith (pseudoEnc64 1 ++ rdBlk64)).status.busy = false ∧
    (idleWith (pseudoEnc64 1 ++ rdBlk64)).host = pseudoEnc64 1 ++ rdBlk64 ++ [] ∧
    (idleWith (pseudoDec64 1 ++ rdBlk64)).host = pseudoDec64 1 ++ rdBlk64 ++ [] := ⟨rfl, rfl, rfl⟩

/-- The last round word, the first substitution word and the last one. -/
theorem witness_MutatePhaseOneXorsTheByteSwappedWords :
    17 < 1042 ∧ 17 < 18 ∧ 18 ≤ 18 ∧ 18 < 1042 ∧ 18 ≤ 1041 ∧ 1041 < 1042 := by decide

theorem witness_MutateRegeneratesTheTableInPlace :
    (∀ i, i < 1042 → ktWord (stateOf seedZ ⟨0, 0, 5⟩ ⟨1, 2⟩).kt i = 0) ∧ (stateOf seedZ ⟨0, 0, 5⟩ ⟨1, 2⟩).d.d0 = 0 ∧
      (stateOf seedZ ⟨0, 0, 5⟩ ⟨1, 2⟩).d.d1 = 0 := ⟨fun _ h => zeroTable_word h, rfl, rfl⟩

theorem witness_MixstepConditionsThenMutates :
    ∀ i, i < 1042 → ktWord (stateOf seedZ testTriple ⟨0, 0⟩).kt i = 0 := fun _ h => zeroTable_word h

theorem witness_Init1IsSeedDeriveMixstepMixstep :
    ({ stateOf seedT testTriple ⟨1, 2⟩ with gc := 5 } : State).gc = ({ State.reset with gc := 5 } : State).gc ∧
    ∀ i, i < 1042 → ktWord (tableOf seedZ) i = 0 := ⟨rfl, fun _ h => zeroTable_word h⟩

/-! #### The codec's witnesses

The seed table is open, so a header that decrypts to a given pair is built by encrypting the pair. -/

/-- A reverse round takes back what the forward round before it did. -/
theorem blockRound_undo (kt : KeyTable) (x : Block) (i j k : Fin 18) :
    blockRound kt ⟨(blockRound kt x i).right ^^^ roundWord kt k, (blockRound kt x i).left ^^^ roundWord kt j⟩ k =
      ⟨x.right ^^^ roundWord kt j, x.left ^^^ roundWord kt i⟩ := by
  have h1 : ∀ a b : Word, a ^^^ (b ^^^ a) = b := fun a b => by
    rw [BitVec.xor_comm b a, ← BitVec.xor_assoc, BitVec.xor_self, BitVec.zero_xor]
  have h2 : ∀ a b c : Word, a ^^^ b ^^^ c ^^^ b = a ^^^ c := fun a b c => by
    rw [BitVec.xor_assoc, BitVec.xor_comm c b, ← BitVec.xor_assoc, BitVec.xor_assoc a, BitVec.xor_self, BitVec.xor_zero]
  simp only [blockRound, h1, h2]
  rw [BitVec.xor_comm (roundWord kt i)]

theorem dec_of_enc (kt : KeyTable) (x : Block) : dec kt (enc kt x) = x := by
  have h : ∀ a b : Word, (a ^^^ b) ^^^ b = a := fun a b => by rw [BitVec.xor_assoc, BitVec.xor_self, BitVec.xor_zero]
  unfold dec enc
  simp only [forwardRounds, reverseRounds, runRounds_cons, runRounds_nil, blockRound_undo, h]

/-- A state whose header `SADEC` turns into `x`. -/
def encryptedHeader (x : Block) : State :=
  writeBlockAt 0 (enc (init1 seedTable 0).kt (enc (init2 (init1 seedTable 0)).kt x)) State.reset

theorem encryptedHeader_decrypts (x : Block) : blockAt (sadecHeader seedTable (encryptedHeader x)) 0 = x := by
  have hgc : (encryptedHeader x).gc = 0 := by unfold encryptedHeader; rw [writeBlockAt_eq]; rfl
  unfold sadecHeader
  rw [hgc, blockAt_xbuf_same _ (by decide), blockAt_xbuf_same _ (by decide)]
  unfold encryptedHeader
  rw [blockAt_writeBlockAt_same _ _ (by decide), transform_reverse, transform_reverse, dec_of_enc, dec_of_enc]

/-- `SADEC` succeeds. -/
theorem sadec_succeeds : ∃ t, exec .sadec (encryptedHeader ⟨0x6A624F79, 0x72636E65⟩) = .next t ∧ t.status.result = 0 := by
  refine ⟨_, exec_sadec _, ?_⟩
  unfold sadec
  rw [if_pos ((headerIs_iff magic0 magic1 _).2 (encryptedHeader_decrypts ⟨0x6A624F79, 0x72636E65⟩))]
  rfl

/-- `SADEC` finds a mismatch. -/
theorem sadec_fails : ∃ t, exec .sadec (encryptedHeader ⟨0, 0⟩) = .next t ∧ t.status.result = 2 := by
  refine ⟨_, exec_sadec _, ?_⟩
  unfold sadec
  rw [if_neg (fun h => by
    have h' := (encryptedHeader_decrypts ⟨0, 0⟩).symm.trans ((headerIs_iff _ _ _).1 h)
    exact absurd h' (by decide))]
  rfl

/-- `SAENC` succeeds; and, with a header that is not the sentinel pair, does not. -/
theorem saenc_succeeds : ∃ t,
    exec .saenc (headerState [0xFF, 0xDE, 0xFF, 0xE7, 0xFF, 0xDE, 0xFF, 0xE7]) = .next t ∧ t.status.result = 0 := by
  refine ⟨_, exec_saenc _, ?_⟩
  unfold saenc
  rw [if_pos (by decide +kernel)]
  rfl

theorem witness_SadecDecryptsTheRegion :
    (∃ t, exec .sadec (encryptedHeader ⟨0x6A624F79, 0x72636E65⟩) = .next t ∧ t.status.result = 0) ∧
    (∃ t, exec .sadec (encryptedHeader ⟨0, 0⟩) = .next t ∧ t.status.result = 2) ∧ 0 < 255 ∧ 254 < 255 :=
  ⟨sadec_succeeds, sadec_fails, by decide, by decide⟩

theorem witness_SaencEncryptsTheRegion :
    blockAt (headerState [0xFF, 0xDE, 0xFF, 0xE7, 0xFF, 0xDE, 0xFF, 0xE7]) 0 = ⟨0xE7FFDEFF, 0xE7FFDEFF⟩ ∧
    blockAt (headerState [0xFF, 0xDE, 0xFF, 0xE7, 0, 0, 0, 0]) 0 ≠ ⟨0xE7FFDEFF, 0xE7FFDEFF⟩ := by decide +kernel

theorem witness_DecryptionMismatchComesFromSadecAlone :
    ∃ t, exec .sadec (encryptedHeader ⟨0, 0⟩) = .next t ∧ t.status.result = 2 := sadec_fails

theorem witness_AlreadyEncryptedComesFromSaencAlone : ∃ t,
    exec .saenc (headerState [0xFF, 0xDE, 0xFF, 0xE7, 0, 0, 0, 0]) = .next t ∧ t.status.result = 3 :=
  ⟨_, test_saenc_precondition.1, rfl⟩

theorem witness_FailedSaencRepeats : ∃ t,
    exec .saenc (headerState [0xE7, 0xFF, 0xDE, 0xFF, 0xE7, 0xFF, 0xDE, 0xFF]) = .next t ∧ t.status.result = 3 :=
  ⟨_, test_saenc_precondition.2, rfl⟩

theorem witness_EncryptAndDecryptRestoreTheBuffer :
    (∃ s t s' : State, exec .saenc s = .next t ∧ t.status.result = 0 ∧ s'.gc = s.gc ∧ s'.buf = t.buf ∧
      s'.resetDraw = t.resetDraw) ∧
    (∃ s t s' : State, exec .sadec s = .next t ∧ t.status.result = 0 ∧ s'.gc = s.gc ∧ s'.buf = t.buf ∧
      s'.resetDraw = t.resetDraw) := by
  obtain ⟨t, ht, hr⟩ := saenc_succeeds
  obtain ⟨u, hu, hr'⟩ := sadec_succeeds
  exact ⟨⟨_, t, { State.reset with gc := _, buf := t.buf, resetDraw := t.resetDraw }, ht, hr, rfl, rfl, rfl⟩,
    ⟨_, u, { State.reset with gc := _, buf := u.buf, resetDraw := u.resetDraw }, hu, hr', rfl, rfl, rfl⟩⟩

/-- Two states that share game code and buffer and nothing else an instruction of the codec could have read. -/
theorem witness_CodecDependsOnGameCodeAndBufferAlone :
    ({ headerState [1, 2] with d := testTriple, l := 5, cmdReg := 9 } : State).gc = (headerState [1, 2]).gc ∧
    ({ headerState [1, 2] with d := testTriple, l := 5, cmdReg := 9 } : State).buf = (headerState [1, 2]).buf ∧
    ({ headerState [1, 2] with d := testTriple, l := 5, cmdReg := 9 } : State).resetDraw =
      (headerState [1, 2]).resetDraw := ⟨rfl, rfl, rfl⟩

theorem witness_CiphertextBlocksAreIndependent : ∃ s s' t t' : State,
    s'.gc = s.gc ∧ exec .saenc s = .next t ∧ exec .saenc s' = .next t' ∧ t.status.result = 0 ∧
      t'.status.result = 0 := by
  obtain ⟨t, ht, hr⟩ := saenc_succeeds
  exact ⟨_, _, t, t, rfl, ht, ht, hr, hr⟩

theorem witness_EveryCommandCompletesAndReadsNoStatus :
    sequencerToMove (aboutToRun 0x6) ∧ ∃ e, decodeWord (aboutToRun 0x6).cmdReg = .error e := ⟨⟨rfl, .inl rfl⟩, _, rfl⟩

theorem witness_CommandsWriteOnlyWhatTheyName : ∃ t, exec .derive State.reset = .next t := ⟨_, rfl⟩

theorem witness_EveryStepKeepsTheStateLegal :
    (aboutToRun 0x11).legal ∧ ∃ t, step (aboutToRun 0x11) = .next t := by
  refine ⟨?_, _, rfl⟩
  unfold State.legal
  decide

end Sys2Proof.Tests
end

section
/-! SUPPORT. The round and substitution words as views of the numbered table words (10_state.md R11). -/

namespace Sys2Proof.Statements

open Sys2Proof.Machine

/-- A table word by its number, where there is one. -/
theorem ktWord_of_lt (kt : KeyTable) {i : Nat} (h : i < 1042) : ktWord kt i = kt.get ⟨i, h⟩ := dif_pos h

/-- A table word read after one table word is written. -/
theorem ktWord_set (kt : KeyTable) (i : Fin 1042) (v : Word) (j : Nat) :
    ktWord (kt.set i.val v) j = if j = i.val then v else ktWord kt j := by
  by_cases hj : j < 1042
  · simp only [ktWord_of_lt _ hj, KeyTable.get_eq, Vector.getElem_set, eq_comm]
  · have hne : j ≠ i.val := by omega
    rw [if_neg hne, ktWord, ktWord, dif_neg hj, dif_neg hj]

theorem roundWord_eq_ktWord (kt : KeyTable) (i : Fin 18) : roundWord kt i = ktWord kt i.val :=
  (ktWord_of_lt kt _).symm

theorem substWord_eq_ktWord (kt : KeyTable) (k : Fin 4) (j : Byte) :
    substWord kt k j = ktWord kt (18 + 256 * k.val + j.toNat) :=
  (ktWord_of_lt kt _).symm

end Sys2Proof.Statements

namespace Sys2Proof.Proofs

open Sys2Proof.Machine Sys2Proof.Statements

/-- Settles O6: both views read numbered table words, and a write of one table word changes that number alone. -/
theorem roundAndSubstWordsAreViewsOfTheTable : Obligations.RoundAndSubstWordsAreViewsOfTheTable := by
  refine fun kt => ⟨roundWord_eq_ktWord kt, substWord_eq_ktWord kt, fun i v => ⟨fun p => ?_, fun k j => ?_⟩⟩
  · rw [roundWord_eq_ktWord, ktWord_set, roundWord_eq_ktWord]
  · rw [substWord_eq_ktWord, ktWord_set, substWord_eq_ktWord]

end Sys2Proof.Proofs
end

section
/-! SUPPORT. What an idle core does with the host's pending move, and the register map offset by offset (10_state.md
R25, R26, 20_memory.md R35). -/

namespace Sys2Proof.Machine

/-! ### A move of the host on an idle core -/

/-- An idle core lets the host make its first pending move. -/
theorem step_of_idle {s : State} {m : HostMove} {rest : List HostMove} (hb : s.status.busy = false)
    (hh : s.host = m :: rest) : step s = hostMove m { s with host := rest } := by
  have hm : nextMover s = .host m rest := by simp [nextMover, hh, hb]
  rw [step, hm]

theorem hostMove_read {s : State} {width : AccessWidth} {off : Nat} (hb : s.status.busy = false)
    (hl : accessListed width off = true) :
    hostMove (.read width off) s = .next { s with hostData := readData s width off } := by
  simp [hostMove, hb, hl]

theorem hostMove_write {s : State} {width : AccessWidth} {off : Nat} (v : BitVec 64) (hb : s.status.busy = false)
    (hl : accessListed width off = true) :
    hostMove (.write width off v) s = .next (writeData width off v s) := by
  simp [hostMove, hb, hl]

/-- What a read returns does not depend on the moves pending after it. -/
theorem readData_host (s : State) (rest : List HostMove) (width : AccessWidth) (off : Nat) :
    readData { s with host := rest } width off = readData s width off := by
  cases width <;> rfl

/-- An idle core answers a listed read that is pending. -/
theorem step_read {s : State} {width : AccessWidth} {off : Nat} {rest : List HostMove} (hb : s.status.busy = false)
    (hl : accessListed width off = true) (hh : s.host = .read width off :: rest) :
    step s = .next { s with host := rest, hostData := readData s width off } := by
  rw [step_of_idle hb hh, hostMove_read (s := { s with host := rest }) hb hl, readData_host]

/-- An idle core takes a listed write that is pending. -/
theorem step_write {s : State} {width : AccessWidth} {off : Nat} {v : BitVec 64} {rest : List HostMove}
    (hb : s.status.busy = false) (hl : accessListed width off = true) (hh : s.host = .write width off v :: rest) :
    step s = .next (writeData width off v { s with host := rest }) :=
  (step_of_idle hb hh).trans (hostMove_write v hb hl)

/-! ### Which accesses are listed -/

theorem inBufWindow_iff {off : Nat} : inBufWindow off = true ↔ 0x3000 ≤ off ∧ off < 0x3800 := decide_eq_true_iff

theorem accessListed_w8_iff {off : Nat} : accessListed .w8 off = true ↔ 0x3000 ≤ off ∧ off < 0x3800 := inBufWindow_iff

theorem accessListed_w32_iff {off : Nat} : accessListed .w32 off = true ↔ off % 4 = 0 := beq_iff_eq

/-! ### The windows and the reserved offsets -/

theorem readWord_table (s : State) {i : Nat} (h : i < 1042) : readWord s (0x1000 + 4 * i) = s.kt.get ⟨i, h⟩ := by
  have hin : 0x1000 ≤ 0x1000 + 4 * i ∧ 0x1000 + 4 * i < 0x2048 := by omega
  have hi : (0x1000 + 4 * i - 0x1000) / 4 = i := by omega
  simp only [readWord, dif_pos hin, hi]

theorem readWord_buffer (s : State) {o : Nat} (h : o < 0x800) : readWord s (0x3000 + o) = memRead s o := by
  have hout : ¬(0x1000 ≤ 0x3000 + o ∧ 0x3000 + o < 0x2048) := by omega
  have hin : inBufWindow (0x3000 + o) = true := inBufWindow_iff.2 (by omega)
  rw [readWord, dif_neg hout, if_pos hin, Nat.add_sub_cancel_left]

theorem writeWord_buffer (s : State) (w : Word) {o : Nat} (h : o < 0x800) :
    writeWord (0x3000 + o) w s = memWrite o w s := by
  have hin : inBufWindow (0x3000 + o) = true := inBufWindow_iff.2 (by omega)
  unfold writeWord
  rw [if_pos hin, Nat.add_sub_cancel_left]

/-- The reserved ranges of the register space read 0 (R25). -/
theorem readWord_reserved (s : State) {off : Nat}
    (h : (0x002C ≤ off ∧ off ≤ 0x0FFF) ∨ (0x2048 ≤ off ∧ off ≤ 0x2FFF) ∨ 0x3800 ≤ off) : readWord s off = 0 := by
  have htable : ¬(0x1000 ≤ off ∧ off < 0x2048) := by omega
  have hbuf : ¬inBufWindow off = true := by rw [inBufWindow_iff]; omega
  rw [readWord, dif_neg htable, if_neg hbuf]
  split
  case h_10 => rfl
  all_goals omega

/-- `STATUS`, `SALT`, the key-table window and the reserved offsets ignore writes (R25). -/
theorem writeWord_ignored (s : State) (w : Word) {off : Nat}
    (h : off = 0x0004 ∨ off = 0x000C ∨ (0x0024 ≤ off ∧ off ≤ 0x2FFF) ∨ 0x3800 ≤ off) : writeWord off w s = s := by
  have hbuf : ¬inBufWindow off = true := by rw [inBufWindow_iff]; omega
  unfold writeWord
  rw [if_neg hbuf]
  split
  case h_8 => rfl
  all_goals omega

end Sys2Proof.Machine

namespace Sys2Proof.Statements

open Sys2Proof.Machine

/-! ### The 32-bit accesses, as the obligations state them -/

/-- An aligned read returns what `readWord` says. -/
theorem ReadReturns.of_readWord {off : Nat} {value : State → Word} (ha : off % 4 = 0)
    (h : ∀ s, readWord s off = value s) : ReadReturns off value := by
  intro s rest hb hh
  rw [step_read hb (accessListed_w32_iff.2 ha) hh, readData, h]

/-- An aligned write does what `writeWord` says. -/
theorem WriteDoes.of_writeWord {off : Nat} {effect : Word → State → State} (ha : off % 4 = 0)
    (h : ∀ w s, writeWord off w s = effect w s) : WriteDoes off effect := by
  intro s rest x hb hh
  rw [step_write hb (accessListed_w32_iff.2 ha) hh, writeData, h, BitVec.setWidth_eq_extractLsb' (by decide)]

theorem readReturns_cmd : ReadReturns 0x0000 (fun _ => 0) := .of_readWord rfl fun _ => rfl

theorem writeDoes_cmd : WriteDoes 0x0000 (fun w s => { s with cmdReg := w, status := ⟨true, false, 0⟩ }) :=
  .of_writeWord rfl fun _ _ => rfl

end Sys2Proof.Statements

namespace Sys2Proof.Proofs

open Sys2Proof.Machine Sys2Proof.Statements

/-- Settles O14: the idle core takes the access, and `writeWord` at offset 0 is `issue`. -/
theorem cmdWriteStartsTheCommand : Obligations.CmdWriteStartsTheCommand := ⟨writeDoes_cmd, readReturns_cmd⟩

/-- Settles O16: an idle core takes every listed access, so each row is what `readWord`, `writeWord` or a byte access
does at its offset. -/
theorem hostRegisterMap : Obligations.HostRegisterMap := by
  refine ⟨⟨readReturns_cmd, ?status, ?gc, ?reserved0C, ?r, ?l, ?d0, ?d1, ?d2, ?salt0, ?salt1, ?table, ?buffer,
      ?reserved⟩, ⟨writeDoes_cmd, ?wGc, ?wR, ?wL, ?wD0, ?wD1, ?wD2, ?wBuffer, ?wIgnored⟩, ?byteRead, ?byteWrite⟩
  case table =>
    exact fun i hi => .of_readWord (by omega) fun s => (readWord_table s hi).trans (ktWord_of_lt s.kt hi).symm
  case buffer => exact fun o ho ha => .of_readWord (by omega) fun s => readWord_buffer s ho
  case reserved => exact fun off ha hr => .of_readWord ha fun s => readWord_reserved s hr
  case wBuffer => exact fun o ho ha => .of_writeWord (by omega) fun w s => writeWord_buffer s w ho
  case wIgnored => exact fun off ha hr => .of_writeWord ha fun w s => writeWord_ignored s w hr
  case byteRead =>
    intro s o rest ho hb hh
    rw [step_read hb (accessListed_w8_iff.2 (by omega)) hh, readData, Nat.add_sub_cancel_left]
  case byteWrite =>
    intro s o x rest ho hb hh
    rw [step_write hb (accessListed_w8_iff.2 (by omega)) hh, writeData, Nat.add_sub_cancel_left,
      BitVec.setWidth_eq_extractLsb' (by decide)]
  case wGc | wR | wL | wD0 | wD1 | wD2 => exact .of_writeWord rfl fun _ _ => rfl
  all_goals exact .of_readWord rfl fun _ => rfl

end Sys2Proof.Proofs
end

section
/-! SUPPORT. Words and blocks of the buffer as little-endian numbers (20_memory.md R31, R32). -/

namespace Sys2Proof.Machine

theorem wordOfBytes_toNat (b3 b2 b1 b0 : Byte) :
    (wordOfBytes b3 b2 b1 b0).toNat = b0.toNat + 2 ^ 8 * b1.toNat + 2 ^ 16 * b2.toNat + 2 ^ 24 * b3.toNat := by
  simp only [wordOfBytes, BitVec.toNat_append, Nat.shiftLeft_eq, Nat.mul_comm _ (2 ^ 8),
    ← Nat.two_pow_add_eq_or_of_lt, b0.isLt, b1.isLt, b2.isLt]
  omega

end Sys2Proof.Machine

namespace Sys2Proof.Statements

open Sys2Proof.Machine

/-- The first bytes are the low part of the number, the bytes after them the high part. -/
theorem bufferValue_add (s : State) (off m n : Nat) :
    bufferValue s off (m + n) = bufferValue s off m + 2 ^ (8 * m) * bufferValue s (off + m) n := by
  simp only [bufferValue, List.range_add, List.map_append, List.sum_append, List.map_map, Function.comp_def,
    ← List.sum_map_mul_left, Nat.mul_add, pow_add, Nat.mul_assoc, Nat.add_assoc]

/-- A word of the buffer is the little-endian number of its four bytes (R31). -/
theorem memRead_toNat (s : State) (off : Nat) : (memRead s off).toNat = bufferValue s off 4 := by
  rw [memRead, wordOfBytes_toNat]
  simp [bufferValue, List.range_succ, Nat.add_assoc]

/-- A block of the buffer is the little-endian number of its eight bytes, the left half high (R32). -/
theorem blockAt_toNat (s : State) (off : Nat) :
    2 ^ 32 * (blockAt s off).left.toNat + (blockAt s off).right.toNat = bufferValue s off 8 :=
  calc 2 ^ 32 * (memRead s (off + 4)).toNat + (memRead s off).toNat
      = 2 ^ 32 * bufferValue s (off + 4) 4 + bufferValue s off 4 := by rw [memRead_toNat, memRead_toNat]
    _ = bufferValue s off (4 + 4) := by rw [bufferValue_add, Nat.add_comm]

end Sys2Proof.Statements

namespace Sys2Proof.Proofs

open Sys2Proof.Machine Sys2Proof.Statements

/-- Settles O9: the halves are the words `blockAt` reads, the number is `blockAt_toNat`, and the words after a write are
the halves of the block read back. -/
theorem blockIsLittleEndianWithLeftHigh : Obligations.BlockIsLittleEndianWithLeftHigh := by
  intro s off x hoff _
  have hback : blockAt (writeBlockAt off x s) off = x := blockAt_writeBlockAt_same x s hoff
  exact ⟨rfl, rfl, blockAt_toNat s off, congrArg Block.right hback, congrArg Block.left hback⟩

end Sys2Proof.Proofs
end

section
/-! SUPPORT. What the decoder accepts and refuses: it inverts the encoder, each row of the opcode map is one of its
words, and the illegal words by their fields (30_encoding.md R45 to R48). -/

namespace Sys2Proof

/-! ### The fields of a word -/

theorem wordOfFields_fieldsOfWord (w : Word) : wordOfFields (fieldsOfWord w) = w := by
  have hhigh : w.extractLsb' 9 23 ++ w.extractLsb' 8 1 = w.extractLsb' 8 24 :=
    BitVec.extractLsb'_append_extractLsb'_eq_extractLsb' rfl
  have hall : w.extractLsb' 8 24 ++ w.extractLsb' 0 8 = w.extractLsb' 0 32 :=
    BitVec.extractLsb'_append_extractLsb'_eq_extractLsb' rfl
  rw [wordOfFields, fieldsOfWord, hhigh, hall, BitVec.extractLsb'_eq_self]

theorem fieldsOfWord_op_toNat (w : Word) : (fieldsOfWord w).op.toNat = w.toNat % 256 := by
  simp [fieldsOfWord]

theorem fieldsOfWord_dir_toNat (w : Word) : (fieldsOfWord w).dir.toNat = w.toNat / 2 ^ 8 % 2 := by
  simp [fieldsOfWord, Nat.shiftRight_eq_div_pow]

theorem fieldsOfWord_zero_toNat (w : Word) : (fieldsOfWord w).zero.toNat = w.toNat / 2 ^ 9 := by
  have hw := w.isLt
  simp only [fieldsOfWord, BitVec.extractLsb'_toNat, Nat.shiftRight_eq_div_pow]
  omega

theorem bitOfDirection_directionOfBit (b : BitVec 1) : bitOfDirection (directionOfBit b) = b := by
  revert b
  decide

/-! ### The decoder inverts the encoder -/

/-- An operation code decodes to the command with that code, and with that direction bit where it has one. -/
theorem encodeFields_of_decodeOperation {op : BitVec 8} {dir : BitVec 1} {i : Instr}
    (h : decodeOperation op dir = .ok i) : encodeFields i = ⟨op, if op = 0x11 then dir else 0, 0⟩ := by
  unfold decodeOperation at h
  split at h
  case h_13 => cases h
  all_goals
    next hop =>
      obtain ⟨-, rfl⟩ := BitVec.toNat_eq_nat.1 hop
      cases h
      simp [encodeFields, bitOfDirection_directionOfBit]

theorem encodeFields_of_decodeFields {f : CommandFields} {i : Instr} (h : decodeFields f = .ok i) :
    encodeFields i = f := by
  unfold decodeFields at h
  split_ifs at h with hzero hdir
  have hdir' : (if f.op = 0x11 then f.dir else 0) = f.dir :=
    ite_eq_left_iff.2 fun hop => (not_not.1 fun hne => hdir ⟨hne, hop⟩).symm
  rw [encodeFields_of_decodeOperation h, hdir', ← not_not.1 hzero]

theorem decodeWord_encode (i : Instr) : decodeWord (encode i) = .ok i := by
  cases i with
  | xform dir => cases dir <;> rfl
  | _ => rfl

/-- A word decodes to a command exactly when it is that command's word. -/
theorem decodeWord_eq_ok_iff {w : Word} {i : Instr} : decodeWord w = .ok i ↔ encode i = w := by
  refine ⟨fun h => ?_, fun h => h ▸ decodeWord_encode i⟩
  rw [encode, encodeFields_of_decodeFields h, wordOfFields_fieldsOfWord]

/-! ### What the decoder refuses -/

theorem decodeOperation_error_iff {op : BitVec 8} {dir : BitVec 1} :
    (∃ e, decodeOperation op dir = .error e) ↔ op ∉ assignedOps := by
  unfold decodeOperation
  split
  case h_13 =>
    simp only [assignedOps, List.mem_cons, ← BitVec.toNat_inj]
    simp_all
  all_goals
    next hop =>
      obtain ⟨-, rfl⟩ := BitVec.toNat_eq_nat.1 hop
      simp [assignedOps]

/-- The three ways for a word to be illegal (R48). -/
theorem decodeFields_error_iff {f : CommandFields} :
    (∃ e, decodeFields f = .error e) ↔ f.op ∉ assignedOps ∨ f.zero ≠ 0 ∨ (f.dir ≠ 0 ∧ f.op ≠ 0x11) := by
  unfold decodeFields
  split_ifs with hzero hdir
  · exact iff_of_true ⟨_, rfl⟩ (.inr (.inl hzero))
  · exact iff_of_true ⟨_, rfl⟩ (.inr (.inr hdir))
  · rw [decodeOperation_error_iff]
    simp only [hzero, hdir, or_false]

/-- The gaps between the operation codes of R46, as R48 lists them. -/
theorem not_mem_assignedOps_iff {op : BitVec 8} :
    op ∉ assignedOps ↔ op.toNat = 0x00 ∨ op.toNat = 0x06 ∨ op.toNat = 0x07 ∨ (0x0B ≤ op.toNat ∧ op.toNat ≤ 0x0F) ∨
      (0x12 ≤ op.toNat ∧ op.toNat ≤ 0x1F) ∨ 0x22 ≤ op.toNat := by
  simp only [assignedOps, List.mem_cons, List.not_mem_nil, or_false, ← BitVec.toNat_inj, BitVec.ofNat_eq_ofNat,
    BitVec.toNat_ofNat]
  omega

/-! ### The rows of the opcode map -/

/-- A word is its other bits together with its bit 8. -/
theorem and_bit8_clear_or (w : Word) : w &&& 0xFFFFFEFF ||| (if w.getLsbD 8 then 0x100 else 0) = w := by
  have hbit : w &&& 0x100 = if w.getLsbD 8 then 0x100 else 0 := BitVec.and_twoPow w 8
  rw [← hbit, ← BitVec.and_or_distrib_left]
  exact BitVec.and_allOnes

theorem encode_xform_eq_iff {w : Word} :
    encode (.xform (if w.getLsbD 8 then .forward else .reverse)) = w ↔ w &&& 0xFFFFFEFF = 0x00000011 := by
  have henc : encode (.xform (if w.getLsbD 8 then .forward else .reverse)) =
      0x00000011 ||| (if w.getLsbD 8 then 0x100 else 0) := by split <;> rfl
  refine ⟨fun h => ?_, fun h => ?_⟩
  · rw [← h]
    split <;> rfl
  · rw [henc, ← h, and_bit8_clear_or]

end Sys2Proof

namespace Sys2Proof.Statements

/-- Every row but that of `XFORM` is the word of one command, whatever the direction. -/
theorem opcodeRows_cases {row : Word × Word × (Direction → Instr)} (h : row ∈ opcodeRows) :
    row = (0x00000011, 0xFFFFFEFF, .xform) ∨
      row.2.1 = BitVec.allOnes 32 ∧ ∀ dir, decodeWord row.1 = .ok (row.2.2 dir) := by
  fin_cases h
  on_goal 10 => exact .inl rfl
  all_goals exact .inr ⟨rfl, fun _ => rfl⟩

theorem and_mask_eq_match_iff (w : Word) {row : Word × Word × (Direction → Instr)} (h : row ∈ opcodeRows) :
    w &&& row.2.1 = row.1 ↔ decodeWord w = .ok (row.2.2 (if w.getLsbD 8 then .forward else .reverse)) := by
  rw [decodeWord_eq_ok_iff]
  obtain rfl | ⟨hmask, hdec⟩ := opcodeRows_cases h
  · exact encode_xform_eq_iff.symm
  · rw [hmask, BitVec.and_allOnes, decodeWord_eq_ok_iff.1 (hdec _), eq_comm]

/-- Every mask covers the bits other than bit 8, and no match has bit 8 set. -/
theorem opcodeRows_bit8 : ∀ row ∈ opcodeRows,
    row.2.1 &&& 0xFFFFFEFF = 0xFFFFFEFF ∧ row.1 &&& 0xFFFFFEFF = row.1 := by decide

/-- The match of a row that a word fits is the word with bit 8 cleared. -/
theorem and_bit8_clear_of_fits {w : Word} {row : Word × Word × (Direction → Instr)} (h : row ∈ opcodeRows)
    (hfit : w &&& row.2.1 = row.1) : w &&& 0xFFFFFEFF = row.1 := by
  obtain ⟨hmask, hmatch⟩ := opcodeRows_bit8 row h
  rw [← hmask, ← BitVec.and_assoc, hfit, hmatch]

end Sys2Proof.Statements

namespace Sys2Proof.Machine

open Sys2Proof.Statements

theorem nextMover_of_sequencerToMove {s : State} (h : sequencerToMove s) : nextMover s = .sequencer := by
  obtain ⟨hbusy, hhost | ⟨rest, hhost⟩⟩ := h
  · simp [nextMover, hbusy, hhost]
  · simp [nextMover, hbusy, hhost]

/-- The sequencer completes an illegal word with code 4 and changes nothing else (R94). -/
theorem step_of_illegal {s : State} (h : sequencerToMove s) (he : ∃ e, decodeWord s.cmdReg = .error e) :
    step s = .next { s with status := completedWith 4 } := by
  obtain ⟨e, he⟩ := he
  rw [step, nextMover_of_sequencerToMove h]
  simp only [currentCommand, he]
  rfl

end Sys2Proof.Machine

namespace Sys2Proof.Proofs

open Sys2Proof.Machine Sys2Proof.Statements

/-- Settles O2: `w` fits a row exactly when it is the word of the row's command, and then the row's match is `w` with
bit 8 cleared, so no second row has another. -/
theorem opcodeRowsSelectByMaskAndMatch : Obligations.OpcodeRowsSelectByMaskAndMatch :=
  fun w => ⟨fun _ h => and_mask_eq_match_iff w h, fun _ h _ h' hfit hfit' =>
    (and_bit8_clear_of_fits h hfit).symm.trans (and_bit8_clear_of_fits h' hfit')⟩

/-- Settles O3: the three ways for a word to be illegal, each read as a number; a step on such a word is
`step_of_illegal`. -/
theorem illegalWordsCompleteWithIllegalCommand : Obligations.IllegalWordsCompleteWithIllegalCommand := by
  refine fun w => ⟨?_, fun s hs hw he => step_of_illegal hs (hw ▸ he)⟩
  rw [decodeWord, decodeFields_error_iff, not_mem_assignedOps_iff]
  simp only [Ne, ← BitVec.toNat_inj, fieldsOfWord_op_toNat, fieldsOfWord_dir_toNat, fieldsOfWord_zero_toNat,
    BitVec.ofNat_eq_ofNat, BitVec.toNat_ofNat]
  omega

end Sys2Proof.Proofs
end

section
/-! SUPPORT. The triple as numbers: its shifts, what `DERIVE` and `RESHIFT` make of it, its bytes, and the accumulator of
the round-word XOR (00_scope.md R6, 20_memory.md R33, 40_key_table_derivation.md R61, R63, R66). -/

namespace Sys2Proof.Machine

theorem shl1_toNat (v : Word) : (shl1 v).toNat = 2 * v.toNat % 2 ^ 32 := by
  rw [shl1, BitVec.toNat_shiftLeft, Nat.shiftLeft_eq, Nat.mul_comm]

theorem shr1_toNat (v : Word) : (shr1 v).toNat = v.toNat / 2 := by
  rw [shr1, BitVec.toNat_ushiftRight, Nat.shiftRight_eq_div_pow, pow_one]

/-- Bit 0 is lost. -/
theorem shl1_shr1 (v : Word) : shl1 (shr1 v) = v &&& 0xFFFFFFFE := BitVec.shiftLeft_ushiftRight

/-- Bit 31 is lost. -/
theorem shr1_shl1 (v : Word) : shr1 (shl1 v) = v &&& 0x7FFFFFFF := by
  apply BitVec.eq_of_toNat_eq
  have hmask : (v &&& 0x7FFFFFFF).toNat = v.toNat % 2 ^ 31 := Nat.and_two_pow_sub_one_eq_mod v.toNat 31
  rw [shr1_toNat, shl1_toNat, hmask]
  omega

/-- Shifting in bytes from below makes the word of those bytes, the first most significant (R63). -/
theorem shiftIn_bytes (b3 b2 b1 b0 : Byte) :
    [b3, b2, b1, b0].foldl (fun (acc : Word) (b : Byte) => (acc <<< 8) ||| b.setWidth 32) 0 =
      wordOfBytes b3 b2 b1 b0 := by
  apply BitVec.eq_of_getLsbD_eq
  intro i hi
  simp only [List.foldl_cons, List.foldl_nil, wordOfBytes, BitVec.getLsbD_append]
  interval_cases i <;> simp

/-- The accumulator of round word `j` by its four bytes. -/
theorem xorWord_eq_wordOfBytes (d : Triple) (j : Nat) :
    xorWord d j = wordOfBytes (tripleByte d ⟨4 * j % 8, by omega⟩) (tripleByte d ⟨(4 * j + 1) % 8, by omega⟩)
      (tripleByte d ⟨(4 * j + 2) % 8, by omega⟩) (tripleByte d ⟨(4 * j + 3) % 8, by omega⟩) :=
  shiftIn_bytes _ _ _ _

/-- The bytes of `D[0]` or of `D[1]`, in turn, each word's least significant byte first: a byte swap (R63). -/
theorem xorWord_eq_bswap32 (d : Triple) (j : Nat) : xorWord d j = bswap32 (if j % 2 = 0 then d.d0 else d.d1) := by
  rw [xorWord_eq_wordOfBytes]
  split
  case isTrue heven =>
    have h0 : 4 * j % 8 = 0 := by omega
    simp only [Nat.add_mod (4 * j), h0]
    rfl
  case isFalse hodd =>
    have h4 : 4 * j % 8 = 4 := by omega
    simp only [Nat.add_mod (4 * j), h4]
    rfl

end Sys2Proof.Machine

namespace Sys2Proof.Statements

open Sys2Proof.Machine

/-- The 12-byte view of the triple is little-endian (R33). -/
theorem tripleByte_toNat (d : Triple) (n : Fin 12) : (tripleByte d n).toNat = tripleByteOf d n.val := by
  fin_cases n <;>
    simp [tripleByte, tripleByteOf, byteOf, byte0, byte1, byte2, byte3, Nat.shiftRight_eq_div_pow]

theorem xorWord_toNat (d : Triple) (j : Nat) :
    (xorWord d j).toNat = 2 ^ 24 * tripleByteOf d (4 * j % 8) + 2 ^ 16 * tripleByteOf d ((4 * j + 1) % 8) +
      2 ^ 8 * tripleByteOf d ((4 * j + 2) % 8) + tripleByteOf d ((4 * j + 3) % 8) := by
  rw [xorWord_eq_wordOfBytes, wordOfBytes_toNat]
  simp only [tripleByte_toNat]
  omega

/-- Phase 1 of a mutation by the word's number (R63). -/
theorem ktWord_mutatePhase1 (kt : KeyTable) (d : Triple) {j : Nat} (hj : j < 1042) :
    ktWord (mutatePhase1 kt d) j = if j < 18 then ktWord kt j ^^^ xorWord d j else ktWord kt j := by
  rw [ktWord_of_lt _ hj, mutatePhase1_get, ktWord_of_lt kt hj]

end Sys2Proof.Statements

namespace Sys2Proof.Proofs

open Sys2Proof.Machine Sys2Proof.Statements

/-- Settles O31: below word 18 the accumulator is `xorWord`, whose bytes and whose byte swap are facts of its own. -/
theorem mutatePhaseOneXorsTheByteSwappedWords : Obligations.MutatePhaseOneXorsTheByteSwappedWords := by
  refine fun kt d j hj => ⟨fun hround => ⟨xorWord d j, ?_, xorWord_toNat d j, xorWord_eq_bswap32 d j⟩, fun hsubst => ?_⟩
  · rw [ktWord_mutatePhase1 kt d hj, if_pos hround]
  · rw [ktWord_mutatePhase1 kt d hj, if_neg (Nat.not_lt.2 hsubst)]

/-- Settles O28: the second `SEED` writes what the first has written. -/
theorem seedCopiesTheSeedTable : Obligations.SeedCopiesTheSeedTable :=
  ⟨rfl, fun s => ⟨exec_seed s, _, exec_seed s, exec_seed _⟩⟩

/-- Settles O29: the three words are `GC` and its two shifts, as numbers. -/
theorem deriveWritesTheTriple : Obligations.DeriveWritesTheTriple :=
  ⟨rfl, fun s => ⟨_, exec_derive s, rfl, shr1_toNat s.gc, shl1_toNat s.gc, rfl⟩⟩

/-- Settles O30: `GC = 0x80000001` loses both its bits, bit 0 in `D[1]` and bit 31 in `D[2]`; and `D[1] = 1` shifted twice
is 4. -/
theorem reshiftShiftsTheTriple : Obligations.ReshiftShiftsTheTriple := by
  refine ⟨rfl, fun s => ⟨_, exec_reshift s, rfl, shl1_toNat s.d.d1, shr1_toNat s.d.d2, rfl⟩,
    fun s => ⟨_, _, exec_derive s, exec_reshift _, shl1_shr1 s.gc, shr1_shl1 s.gc⟩, ?_, ?_⟩
  · exact ⟨{ State.reset with d := ⟨0, 1, 0⟩ }, _, _, exec_reshift _, exec_reshift _, by decide⟩
  · exact ⟨{ State.reset with gc := 0x80000001 }, _, _, exec_derive _, exec_reshift _, by decide, by decide⟩

end Sys2Proof.Proofs
end

section
/-! SUPPORT. The regeneration of a mutation as one sequence of 521 transforms, and what a zero table does to each operation
of the derivation (40_key_table_derivation.md R64, R67, 41_feistel_core.md R70, R73). -/

namespace Sys2Proof.Machine

/-! ### The regeneration, transform by transform -/

/-- Phase 2 after its first `n` transforms (R64). -/
def regenerated (kt : KeyTable) : Nat → Regeneration
  | 0 => ⟨kt, ⟨0, 0⟩⟩
  | n + 1 => if h : n < 521 then regenerate (regenerated kt n) ⟨n, h⟩ else regenerated kt n

theorem regenerated_succ (kt : KeyTable) (n : Fin 521) :
    regenerated kt (n.val + 1) = regenerate (regenerated kt n.val) n := dif_pos n.isLt

/-- A run of `m` transforms, ascending from transform `k`, goes on where the first `k` have left off. -/
theorem foldl_regenerate (kt : KeyTable) (k m : Nat) (index : Fin m → Fin 521)
    (hindex : ∀ i, (index i).val = k + i.val) :
    (List.finRange m).foldl (fun g i => regenerate g (index i)) (regenerated kt k) = regenerated kt (k + m) := by
  induction m with
  | zero => rfl
  | succ m ih =>
    have hlast : (index (Fin.last m)).val = k + m := hindex (Fin.last m)
    rw [List.finRange_succ_last, List.foldl_append, List.foldl_map,
      ih (fun i => index i.castSucc) fun i => hindex i.castSucc, List.foldl_cons, List.foldl_nil, ← hlast,
      ← regenerated_succ, hlast, Nat.add_assoc]

/-- The round words and then the substitution words make one run of 521 transforms. -/
theorem mutatePhase2_eq (kt : KeyTable) : mutatePhase2 kt = (regenerated kt 521).kt := by
  have hround : regenerateRoundWords (regenerated kt 0) = regenerated kt 9 :=
    foldl_regenerate kt 0 9 _ fun i => (Nat.zero_add i.val).symm
  have hsubst : regenerateSubstWords (regenerated kt 9) = regenerated kt 521 :=
    foldl_regenerate kt 9 512 _ fun _ => rfl
  unfold mutatePhase2
  rw [← hsubst, ← hround]
  rfl

end Sys2Proof.Machine

namespace Sys2Proof.Statements

open Sys2Proof.Machine

/-- One transform of phase 2 by the word's number (R64). -/
theorem ktWord_regenerate (g : Regeneration) (n : Fin 521) {i : Nat} (hi : i < 1042) :
    ktWord (regenerate g n).kt i =
      if i = 2 * n.val then (enc g.kt g.acc).left
      else if i = 2 * n.val + 1 then (enc g.kt g.acc).right
      else ktWord g.kt i := by
  rw [ktWord_of_lt _ hi, regenerate_get, ktWord_of_lt g.kt hi]

/-! ### A zero table -/

/-- Every word of the table is 0. -/
def IsZeroTable (kt : KeyTable) : Prop := ∀ i, i < 1042 → ktWord kt i = 0

/-- `F` is 0 where every substitution word is (R70). -/
theorem substitute_eq_zero {kt : KeyTable} (h : ∀ i, 18 ≤ i → i < 1042 → ktWord kt i = 0) (v : Word) :
    substitute kt v = 0 := by
  have hword (k : Fin 4) (j : Byte) : substWord kt k j = 0 := by
    rw [substWord_eq_ktWord]
    exact h _ (by omega) (by omega)
  simp only [substitute, hword]
  rfl

theorem roundWord_of_zero {kt : KeyTable} (h : IsZeroTable kt) (i : Fin 18) : roundWord kt i = 0 :=
  (roundWord_eq_ktWord kt i).trans (h _ (by omega))

/-- Over a zero table a round exchanges the halves. -/
theorem blockRound_of_zero {kt : KeyTable} (h : IsZeroTable kt) (x : Block) (i : Fin 18) :
    blockRound kt x i = ⟨x.right, x.left⟩ := by
  have hsubst (v : Word) : substitute kt v = 0 := substitute_eq_zero (fun i _ => h i) v
  simp [blockRound, hsubst, roundWord_of_zero h]

/-- Over a zero table the forward transform exchanges the halves: its sixteen rounds cancel. -/
theorem enc_of_zero {kt : KeyTable} (h : IsZeroTable kt) (x : Block) : enc kt x = ⟨x.right, x.left⟩ := by
  have hrounds : runRounds kt forwardRounds x = x := by
    simp [forwardRounds, blockRound_of_zero h]
  unfold enc
  simp [hrounds, roundWord_of_zero h]

/-- The regeneration of a zero table writes zeros only. -/
theorem regenerated_of_zero {kt : KeyTable} (h : IsZeroTable kt) (n : Nat) :
    IsZeroTable (regenerated kt n).kt ∧ (regenerated kt n).acc = ⟨0, 0⟩ := by
  induction n with
  | zero => exact ⟨h, rfl⟩
  | succ n ih =>
    obtain ⟨hkt, hacc⟩ := ih
    by_cases hn : n < 521
    · have henc : enc (regenerated kt n).kt (regenerated kt n).acc = ⟨0, 0⟩ := by rw [enc_of_zero hkt, hacc]
      rw [regenerated_succ kt ⟨n, hn⟩]
      refine ⟨fun i hi => ?_, henc⟩
      rw [ktWord_regenerate _ _ hi, henc, hkt i hi, ite_self, ite_self]
    · rw [regenerated, dif_neg hn]
      exact ⟨hkt, hacc⟩

/-- A mutation by a triple whose first two words are 0 leaves a zero table zero (R64). -/
theorem mutateTable_of_zero {kt : KeyTable} (h : IsZeroTable kt) {d : Triple} (h0 : d.d0 = 0) (h1 : d.d1 = 0) :
    IsZeroTable (mutateTable kt d) := by
  have hphase1 : IsZeroTable (mutatePhase1 kt d) := fun i hi => by
    have hxor : xorWord d i = 0 := by rw [xorWord_eq_bswap32, h0, h1, ite_self]; rfl
    simp [ktWord_mutatePhase1 kt d hi, hxor, h i hi]
  rw [mutateTable, mutatePhase2_eq]
  exact (regenerated_of_zero hphase1 521).1

/-- Over a zero table the conditioning rotates the triple (R65). -/
theorem conditionTriple_of_zero {kt : KeyTable} (h : IsZeroTable kt) (d : Triple) :
    conditionTriple kt d = ⟨d.d2, d.d0, d.d1⟩ := by
  simp only [conditionTriple, enc_of_zero h]

/-- A mix step on a zero table and a zero triple leaves both zero (R67). -/
theorem mixStep_of_zero {k : KeyState} (hkt : IsZeroTable k.kt) (hd : k.d = ⟨0, 0, 0⟩) :
    IsZeroTable (mixStep k).kt ∧ (mixStep k).d = ⟨0, 0, 0⟩ := by
  have hcond : (mixStep k).d = ⟨0, 0, 0⟩ := by rw [mixStep, conditionTriple_of_zero hkt, hd]
  exact ⟨mutateTable_of_zero hkt (congrArg Triple.d0 hcond) (congrArg Triple.d1 hcond), hcond⟩

theorem init1_of_zero {seed : KeyTable} (h : IsZeroTable seed) : IsZeroTable (init1 seed 0).kt := by
  obtain ⟨hkt, hd⟩ := mixStep_of_zero (k := ⟨seed, deriveTriple 0⟩) h rfl
  exact (mixStep_of_zero hkt hd).1

end Sys2Proof.Statements

namespace Sys2Proof.Proofs

open Sys2Proof.Machine Sys2Proof.Statements

/-- Settles O32: the tables and blocks are those of `regenerated` over the phase 1 table. -/
theorem mutateRegeneratesTheTableInPlace : Obligations.MutateRegeneratesTheTableInPlace := by
  refine ⟨fun s => ?_, fun s hkt h0 h1 => ⟨_, exec_mutate s, mutateTable_of_zero hkt h0 h1⟩⟩
  have hlast : mutateTable s.kt s.d = (regenerated (mutatePhase1 s.kt s.d) 521).kt := mutatePhase2_eq _
  refine ⟨_, fun n => (regenerated (mutatePhase1 s.kt s.d) n).kt, fun n => (regenerated (mutatePhase1 s.kt s.d) n).acc,
    exec_mutate s, rfl, rfl, fun n hn => ?_, ?_⟩
  · simp only [regenerated_succ _ ⟨n, hn⟩]
    exact ⟨rfl, fun i hi => ktWord_regenerate _ ⟨n, hn⟩ hi⟩
  · rw [hlast]
    apply State.ext <;> simp [completedWith, ResultCode.number]

/-- Settles O35: the four commands' tables and triples are the stages of `init1`, which reads `GC` alone. -/
theorem init1IsSeedDeriveMixstepMixstep : Obligations.Init1IsSeedDeriveMixstepMixstep := by
  refine ⟨rfl, fun s => ?_, fun s s' hgc => ?_, fun seed => init1_of_zero⟩
  · refine ⟨_, _, _, _, _, exec_seed s, exec_derive _, exec_mixstep _, exec_mixstep _, exec_init1 s, ?_, ?_, ?_⟩
    · simp [init1]
    · simp [init1]
    · apply State.ext <;> simp [completedWith, ResultCode.number]
  · exact ⟨_, _, exec_init1 s, exec_init1 s', by simp [hgc], by simp [hgc]⟩

end Sys2Proof.Proofs
end

section
/-! SUPPORT. The substitution unit by the lookup formula, and the state `LOOKUP` leaves (41_feistel_core.md R70, R71). -/

namespace Sys2Proof.Statements

open Sys2Proof.Machine

/-! ### The bytes of a word as numbers -/

theorem extractLsb'_toNat_eq_byteOf (v : Word) (m : Nat) : (v.extractLsb' (8 * m) 8).toNat = byteOf v m := by
  rw [BitVec.extractLsb'_toNat, Nat.shiftRight_eq_div_pow, byteOf]

theorem byte0_toNat (v : Word) : (byte0 v).toNat = byteOf v 0 := extractLsb'_toNat_eq_byteOf v 0

theorem byte1_toNat (v : Word) : (byte1 v).toNat = byteOf v 1 := extractLsb'_toNat_eq_byteOf v 1

theorem byte2_toNat (v : Word) : (byte2 v).toNat = byteOf v 2 := extractLsb'_toNat_eq_byteOf v 2

theorem byte3_toNat (v : Word) : (byte3 v).toNat = byteOf v 3 := extractLsb'_toNat_eq_byteOf v 3

/-! ### `F` and `LOOKUP` -/

/-- The model's `F` is the formula over the numbered table words (R70). -/
theorem substitute_eq_lookupFormula (kt : KeyTable) (v : Word) : substitute kt v = lookupFormula kt v := by
  simp only [substitute, substWord_eq_ktWord, byte0_toNat, byte1_toNat, byte2_toNat, byte3_toNat]
  rfl

/-- `LOOKUP` changes `L` and `STATUS` alone, so a further one reads the same table (R71). -/
theorem exec_lookup_eq_lookupFormula (s : State) :
    exec .lookup s = .next { s with l := lookupFormula s.kt s.l, status := completedWith 0 } := by
  rw [exec_lookup, substitute_eq_lookupFormula]
  rfl

end Sys2Proof.Statements

namespace Sys2Proof.Proofs

open Sys2Proof.Machine Sys2Proof.Statements

/-- Settles O23: the second `LOOKUP` finds the first one's `L` beside the table the first one found. -/
theorem lookupWritesTheFormula : Obligations.LookupWritesTheFormula :=
  ⟨rfl, fun s => ⟨exec_lookup_eq_lookupFormula s, _, _, exec_lookup_eq_lookupFormula s,
    exec_lookup_eq_lookupFormula _, rfl⟩⟩

end Sys2Proof.Proofs
end

section
/-! SUPPORT. The result codes of the codec commands and where each comes from (42_secure_area_codec.md R81, R82,
60_exceptions.md R90 to R92). -/

namespace Sys2Proof.Machine

/-! ### What completing a command and losing the cipher state leave of the buffer -/

theorem bufByte_loseCipherState (s : State) (o : Nat) : bufByte (loseCipherState s) o = bufByte s o :=
  bufByte_congr (loseCipherState_buf s) (loseCipherState_resetDraw s) o

theorem bufByte_complete (code : ResultCode) (s : State) (o : Nat) : bufByte (complete code s) o = bufByte s o :=
  bufByte_congr (complete_buf code s) (complete_resetDraw code s) o

/-! ### `SADEC` up to its check of the header -/

/-- The header after the two reverse transforms, by the header before them (R81, steps 1 to 4). -/
theorem blockAt_sadecHeader (seed : KeyTable) (s : State) :
    blockAt (sadecHeader seed s) 0 =
      dec (init2 (init1 seed s.gc)).kt (dec (init1 seed s.gc).kt (blockAt s 0)) := by
  unfold sadecHeader
  rw [blockAt_xbuf_same _ (by decide), blockAt_xbuf_same _ (by decide), transform_reverse, transform_reverse]

theorem bufByte_sadecHeader_other (seed : KeyTable) (s : State) {o : Nat} (h : 8 ≤ o) :
    bufByte (sadecHeader seed s) o = bufByte s o := by
  unfold sadecHeader
  rw [bufByte_xbuf_other _ (.inr h), bufByte_xbuf_other _ (.inr h)]

/-! ### The two ways each codec command completes -/

theorem sadec_of_magic {seed : KeyTable} {s : State} (h : blockAt (sadecHeader seed s) 0 = ⟨magic1, magic0⟩) :
    sadec seed s = complete .ok (loseCipherState (sadecStrides seed (sadecHeader seed s))) := by
  unfold sadec
  exact if_pos ((headerIs_iff magic0 magic1 _).2 h)

theorem sadec_of_mismatch {seed : KeyTable} {s : State} (h : blockAt (sadecHeader seed s) 0 ≠ ⟨magic1, magic0⟩) :
    sadec seed s = complete .decryptionMismatch (loseCipherState (sadecHeader seed s)) := by
  unfold sadec
  exact if_neg (mt (headerIs_iff magic0 magic1 _).1 h)

theorem saenc_of_sentinel {seed : KeyTable} {s : State} (h : blockAt s 0 = ⟨sentinel, sentinel⟩) :
    saenc seed s = complete .ok (loseCipherState (saencBody seed s)) := by
  unfold saenc
  exact if_pos ((headerIs_iff sentinel sentinel s).2 h)

theorem saenc_of_not_sentinel {seed : KeyTable} {s : State} (h : blockAt s 0 ≠ ⟨sentinel, sentinel⟩) :
    saenc seed s = complete .alreadyEncryptedPrecondition s := by
  unfold saenc
  exact if_neg (mt (headerIs_iff sentinel sentinel s).1 h)

/-! ### The result codes -/

/-- A block differs from a pair of words when either word of it does, the right, low one named first (R32). -/
theorem Block.ne_mk_iff (x : Block) (l r : Word) : x ≠ ⟨l, r⟩ ↔ x.right ≠ r ∨ x.left ≠ l := by
  obtain ⟨a, b⟩ := x
  rw [ne_eq, Block.mk.injEq, not_and_or, or_comm]

/-- `SADEC` completes with code 0 on the magic pair and with code 2 otherwise. -/
theorem sadec_result (seed : KeyTable) (s : State) :
    (sadec seed s).status.result = if blockAt (sadecHeader seed s) 0 = ⟨magic1, magic0⟩ then 0 else 2 := by
  split_ifs with h
  · rw [sadec_of_magic h]; rfl
  · rw [sadec_of_mismatch h]; rfl

/-- `SAENC` completes with code 0 on the sentinel pair and with code 3 otherwise. -/
theorem saenc_result (seed : KeyTable) (s : State) :
    (saenc seed s).status.result = if blockAt s 0 = ⟨sentinel, sentinel⟩ then 0 else 3 := by
  split_ifs with h
  · rw [saenc_of_sentinel h]; rfl
  · rw [saenc_of_not_sentinel h]; rfl

theorem sadec_result_eq_two_iff {seed : KeyTable} {s : State} :
    (sadec seed s).status.result = 2 ↔ blockAt (sadecHeader seed s) 0 ≠ ⟨magic1, magic0⟩ := by
  rw [sadec_result]
  split_ifs with h <;> simp [h]

theorem saenc_result_eq_three_iff {seed : KeyTable} {s : State} :
    (saenc seed s).status.result = 3 ↔ blockAt s 0 ≠ ⟨sentinel, sentinel⟩ := by
  rw [saenc_result]
  split_ifs with h <;> simp [h]

/-- The codes the commands complete with, and which command each but 0 comes from (R90). -/
theorem exec_result_cases {i : Instr} {s t : State} (h : exec i s = .next t) :
    t.status.result = 0 ∨ (i = .sadec ∧ t.status.result = 2) ∨ (i = .saenc ∧ t.status.result = 3) := by
  cases i with
  | sadec =>
    obtain rfl : sadec seedTable s = t := Host.Outcome.next.inj h
    rw [sadec_result]
    split_ifs <;> simp
  | saenc =>
    obtain rfl : saenc seedTable s = t := Host.Outcome.next.inj h
    rw [saenc_result]
    split_ifs <;> simp
  | _ => cases h; exact .inl rfl

end Sys2Proof.Machine

namespace Sys2Proof.Proofs

open Sys2Proof.Machine Sys2Proof.Statements

/-- Settles O40: `INIT1` and `INIT2` leave the two tables `SADEC` derives for itself, and the code is that of its check. -/
theorem decryptionMismatchComesFromSadecAlone : Obligations.DecryptionMismatchComesFromSadecAlone := by
  refine ⟨fun i s t h h2 => ?_, fun s => ⟨_, _, _, exec_init1 s, exec_init2 _, exec_sadec s, ?_⟩⟩
  · obtain h0 | ⟨hi, -⟩ | ⟨-, h3⟩ := exec_result_cases h
    · exact absurd (h2.symm.trans h0) (by decide)
    · exact hi
    · exact absurd (h2.symm.trans h3) (by decide)
  · rw [sadec_result_eq_two_iff]
    simp only [complete_kt, complete_d, loseBlock_kt, loseBlock_d, setKey_kt, setKey_d]
    rw [← blockAt_sadecHeader]
    refine ⟨Block.ne_mk_iff _ _ _, fun h => ?_⟩
    have hbuf : ∀ o, bufByte (sadec seedTable s) o = bufByte (sadecHeader seedTable s) o := fun o => by
      rw [sadec_of_mismatch h, bufByte_complete, bufByte_loseCipherState]
    exact ⟨blockAt_of_bufByte fun o _ _ => hbuf o,
      fun o ho => (hbuf o).trans (bufByte_sadecHeader_other seedTable s ho)⟩

/-- Settles O41: the code is that of `SAENC`'s check, and a failed check has written nothing but `STATUS`. -/
theorem alreadyEncryptedComesFromSaencAlone : Obligations.AlreadyEncryptedComesFromSaencAlone := by
  refine ⟨fun i s t h h3 => ?_, fun s => ⟨_, exec_saenc s, ?_⟩⟩
  · obtain h0 | ⟨-, h2⟩ | ⟨hi, -⟩ := exec_result_cases h
    · exact absurd (h3.symm.trans h0) (by decide)
    · exact absurd (h3.symm.trans h2) (by decide)
    · exact hi
  · rw [saenc_result_eq_three_iff]
    refine ⟨Block.ne_mk_iff _ _ _, fun h o => ?_⟩
    rw [saenc_of_not_sentinel h, bufByte_complete]

end Sys2Proof.Proofs
end

section
/-! SUPPORT. Decoding a list of bytes: exactly the four bytes of a command are consumed (20_memory.md R35,
30_encoding.md R45, R46). -/

namespace Sys2Proof

open Sys2Proof.Machine

theorem commandWordOfBytes_eq_wordOfBytes (b0 b1 b2 b3 : Byte) :
    commandWordOfBytes b0 b1 b2 b3 = wordOfBytes b3 b2 b1 b0 := rfl

theorem bytesOfCommandWord_eq_bytes (w : Word) : bytesOfCommandWord w = [byte0 w, byte1 w, byte2 w, byte3 w] := rfl

/-- Four bytes are a word's bytes exactly when the word is the one they make. -/
theorem bytesOfCommandWord_eq_iff {w : Word} {b0 b1 b2 b3 : Byte} :
    bytesOfCommandWord w = [b0, b1, b2, b3] ↔ w = commandWordOfBytes b0 b1 b2 b3 := by
  rw [bytesOfCommandWord_eq_bytes, commandWordOfBytes_eq_wordOfBytes]
  constructor
  · intro h
    simp only [List.cons.injEq, and_true] at h
    obtain ⟨rfl, rfl, rfl, rfl⟩ := h
    rw [wordOfBytes_bytes]
  · rintro rfl
    obtain ⟨h3, h2, h1, h0⟩ := byte_wordOfBytes b3 b2 b1 b0
    rw [h0, h1, h2, h3]

/-- Four bytes and a rest decode as their word does. -/
theorem decode_cons_eq_ok_iff {b0 b1 b2 b3 : Byte} {bs rest : List Byte} {i : Instr} :
    decode (b0 :: b1 :: b2 :: b3 :: bs) = .ok (i, rest) ↔
      decodeWord (commandWordOfBytes b0 b1 b2 b3) = .ok i ∧ bs = rest := by
  cases h : decodeWord (commandWordOfBytes b0 b1 b2 b3) <;> simp [decode, h]

/-- Bytes decode to a command and a rest exactly when they are that command's bytes followed by that rest. -/
theorem decode_eq_ok_iff {bs rest : List Byte} {i : Instr} :
    decode bs = .ok (i, rest) ↔ bs = encodeBytes i ++ rest := by
  rcases bs with _ | ⟨b0, _ | ⟨b1, _ | ⟨b2, _ | ⟨b3, bs⟩⟩⟩⟩
  case cons.cons.cons.cons =>
    rw [decode_cons_eq_ok_iff, decodeWord_eq_ok_iff, ← bytesOfCommandWord_eq_iff]
    simp [encodeBytes, bytesOfCommandWord, eq_comm, and_assoc]
  all_goals simp [decode, encodeBytes, bytesOfCommandWord]

end Sys2Proof

namespace Sys2Proof.Proofs

/-- Settles O4: its first and last clause are the two directions of `decode_eq_ok_iff`, the other is one of
`decodeWord_eq_ok_iff`. -/
theorem decodeAndEncodeAgree : Obligations.DecodeAndEncodeAgree :=
  ⟨fun _ _ => decode_eq_ok_iff.2 rfl, fun _ _ => decodeWord_eq_ok_iff.1, fun _ _ _ => decode_eq_ok_iff.1⟩

/-- Settles O1: each of the thirteen words is the word of its row's command, which decodes to that command. -/
theorem opcodeMapWordsDecode : Obligations.OpcodeMapWordsDecode :=
  ⟨decodeWord_encode .seed, decodeWord_encode .derive, decodeWord_encode .mutate, decodeWord_encode .mixstep,
    decodeWord_encode .reshift, decodeWord_encode .init1, decodeWord_encode .init2, decodeWord_encode .init0,
    decodeWord_encode .lookup, decodeWord_encode (.xform .reverse), decodeWord_encode (.xform .forward),
    decodeWord_encode .sadec, decodeWord_encode .saenc⟩

end Sys2Proof.Proofs
end

section
/-! SUPPORT. The byte swap, the bytes a word write stores and `STATUS` as numbers (00_scope.md R6, 20_memory.md R31,
10_state.md R19). -/

namespace Sys2Proof.Statements

open Sys2Proof.Machine

theorem bswap32_toNat (v : Word) :
    (bswap32 v).toNat = 2 ^ 24 * byteOf v 0 + 2 ^ 16 * byteOf v 1 + 2 ^ 8 * byteOf v 2 + byteOf v 3 := by
  rw [bswap32, wordOfBytes_toNat, byte0_toNat, byte1_toNat, byte2_toNat, byte3_toNat]
  omega

/-- Byte `m` of a stored word stands `m` offsets up (R31). -/
theorem bufByte_memWrite_toNat (s : State) {off m : Nat} (v : Word) (h : off + 4 ≤ bufSize) (hm : m < 4) :
    (bufByte (memWrite off v s) (off + m)).toNat = byteOf v m := by
  obtain ⟨h0, h1, h2, h3⟩ := bufByte_memWrite v s h
  match m, hm with
  | 0, _ => rw [Nat.add_zero, h0, byte0_toNat]
  | 1, _ => rw [h1, byte1_toNat]
  | 2, _ => rw [h2, byte2_toNat]
  | 3, _ => rw [h3, byte3_toNat]

theorem statusWord_toNat (st : Status) :
    (statusWord st).toNat = st.busy.toNat + 2 * st.done.toNat + 16 * st.result.toNat := by
  obtain ⟨busy, done, result⟩ := st
  have hresult : (((0 : BitVec 24) ++ result ++ (0 : BitVec 2)) : BitVec 30).toNat = 4 * result.toNat := by
    rw [BitVec.toNat_append, BitVec.toNat_append, Nat.shiftLeft_eq, Nat.mul_comm]
    simp
  have hbit (n : Nat) (b : Bool) : n <<< 1 ||| (BitVec.ofBool b).toNat = 2 * n + b.toNat := by
    rw [Nat.shiftLeft_eq, Nat.mul_comm, ← Nat.two_pow_add_eq_or_of_lt (by cases b <;> decide), BitVec.toNat_ofBool,
      pow_one]
  rw [statusWord, BitVec.toNat_append, hbit, BitVec.toNat_append, hbit, hresult]
  dsimp only
  omega

end Sys2Proof.Statements

namespace Sys2Proof.Proofs

open Sys2Proof.Machine Sys2Proof.Statements

/-- Settles O5: the sum is the word type's own, the shifts and the byte swap are `shl1_toNat`, `shr1_toNat` and
`bswap32_toNat`. -/
theorem arithmeticPrimitivesWrap : Obligations.ArithmeticPrimitivesWrap :=
  fun a b => ⟨BitVec.toNat_add a b, shl1_toNat a, shr1_toNat a, bswap32_toNat a⟩

/-- Settles O7: it is `tripleByte_toNat`. -/
theorem tripleBytesAreLittleEndian : Obligations.TripleBytesAreLittleEndian := tripleByte_toNat

/-- Settles O8: a word read is the number of its four bytes, and a word write stores byte `m` at offset `m` and leaves
every other byte. -/
theorem bufferWordsAreLittleEndian : Obligations.BufferWordsAreLittleEndian :=
  fun s _ v h => ⟨wordOfBytes_toNat _ _ _ _, fun _ hm => bufByte_memWrite_toNat s v h hm,
    fun _ ho => bufByte_memWrite_other v s ho⟩

/-- Settles O10: it is `statusWord_toNat`. -/
theorem statusWordLayout : Obligations.StatusWordLayout := statusWord_toNat

end Sys2Proof.Proofs
end

section
/-! SUPPORT. `ENC` and `DEC` as rounds and a boundary step: they undo each other, their rounds are two sequences of
words, and over a zero table they exchange the halves (41_feistel_core.md R72 to R76). -/

namespace Sys2Proof.Machine

/-! ### The transforms undo each other -/

/-- The step after the last round, the halves exchanged and each met by a round word: `i` the right one, `j` the left
one (R73, R74). -/
def boundary (kt : KeyTable) (i j : Fin 18) (x : Block) : Block :=
  ⟨x.right ^^^ roundWord kt j, x.left ^^^ roundWord kt i⟩

theorem enc_eq_boundary (kt : KeyTable) (x : Block) : enc kt x = boundary kt 16 17 (runRounds kt forwardRounds x) := by
  unfold enc; rfl

theorem dec_eq_boundary (kt : KeyTable) (x : Block) : dec kt x = boundary kt 1 0 (runRounds kt reverseRounds x) := by
  unfold dec; rfl

/-- A boundary step undoes the one with its words exchanged. -/
theorem boundary_boundary (kt : KeyTable) (i j : Fin 18) (x : Block) : boundary kt i j (boundary kt j i x) = x := by
  simp only [boundary, xor_cancel_right]

/-- A round after the boundary step takes back the round before it, and the boundary step moves one round word back. -/
theorem blockRound_boundary (kt : KeyTable) (i j k : Fin 18) (x : Block) :
    blockRound kt (boundary kt j k (blockRound kt x i)) k = boundary kt i j x := by
  have hright (a f p : Word) : a ^^^ f ^^^ p ^^^ f = a ^^^ p := by
    rw [BitVec.xor_assoc a, BitVec.xor_comm f, ← BitVec.xor_assoc, xor_cancel_right]
  simp only [blockRound, boundary, xor_xor_cancel_comm_assoc, hright, BitVec.xor_comm (roundWord kt i)]

theorem dec_enc (kt : KeyTable) (x : Block) : dec kt (enc kt x) = x := by
  simp only [enc_eq_boundary, dec_eq_boundary, forwardRounds, reverseRounds, runRounds_cons, runRounds_nil,
    blockRound_boundary, boundary_boundary]

theorem enc_dec (kt : KeyTable) (x : Block) : enc kt (dec kt x) = x := by
  simp only [enc_eq_boundary, dec_eq_boundary, forwardRounds, reverseRounds, runRounds_cons, runRounds_nil,
    blockRound_boundary, boundary_boundary]

/-! ### The rounds one by one -/

/-- The block before round `i` of a run. -/
def beforeRound (kt : KeyTable) (rounds : List (Fin 18)) (x : Block) (i : Nat) : Block :=
  runRounds kt (rounds.take i) x

theorem beforeRound_succ (kt : KeyTable) {rounds : List (Fin 18)} (x : Block) {i : Nat} (h : i < rounds.length) :
    beforeRound kt rounds x (i + 1) = blockRound kt (beforeRound kt rounds x i) rounds[i] := by
  rw [beforeRound, List.take_succ_eq_append_getElem h, runRounds, List.foldl_append]
  rfl

theorem beforeRound_length (kt : KeyTable) (rounds : List (Fin 18)) (x : Block) :
    beforeRound kt rounds x rounds.length = runRounds kt rounds x := by
  rw [beforeRound, List.take_length]

end Sys2Proof.Machine

namespace Sys2Proof.Statements

open Sys2Proof.Machine

/-- One round by the table's numbered words (R72). -/
theorem blockRound_eq_formula (kt : KeyTable) (x : Block) (i : Fin 18) :
    (blockRound kt x i).right = ktWord kt i.val ^^^ x.left ∧
      (blockRound kt x i).left = x.right ^^^ lookupFormula kt (blockRound kt x i).right := by
  rw [blockRound_left, substitute_eq_lookupFormula, blockRound_right, roundWord_eq_ktWord]
  exact ⟨rfl, rfl⟩

/-- A run of `n` rounds whose round `i` takes word `key i` is the recursion of R72 on two sequences of words. -/
theorem runRounds_eq_sequences (kt : KeyTable) {rounds : List (Fin 18)} {n : Nat} {key : Nat → Nat} (x : Block)
    (hn : rounds.length = n) (hkey : ∀ i (h : i < rounds.length), rounds[i].val = key i) :
    ∃ a b : Nat → Word, a 0 = x.left ∧ b 0 = x.right ∧
      (∀ i, i < n → b (i + 1) = ktWord kt (key i) ^^^ a i ∧ a (i + 1) = b i ^^^ lookupFormula kt (b (i + 1))) ∧
      runRounds kt rounds x = ⟨a n, b n⟩ := by
  refine ⟨fun i => (beforeRound kt rounds x i).left, fun i => (beforeRound kt rounds x i).right, rfl, rfl,
    fun i hi => ?_, ?_⟩
  · rw [← hn] at hi
    simp only [beforeRound_succ kt x hi, ← hkey i hi]
    exact blockRound_eq_formula kt _ _
  · simp only [← hn, beforeRound_length]

theorem forwardRounds_getElem : ∀ i (h : i < forwardRounds.length), forwardRounds[i].val = i := by decide

theorem reverseRounds_getElem : ∀ i (h : i < reverseRounds.length), reverseRounds[i].val = 17 - i := by decide

theorem boundary_eq_formula (kt : KeyTable) (i j : Fin 18) (x : Block) :
    boundary kt i j x = ⟨x.right ^^^ ktWord kt j.val, x.left ^^^ ktWord kt i.val⟩ := by
  rw [boundary, roundWord_eq_ktWord, roundWord_eq_ktWord]

/-- Over a zero table either transform exchanges the halves. -/
theorem transform_of_zero {kt : KeyTable} (h : IsZeroTable kt) (dir : Direction) (x : Block) :
    transform kt dir x = ⟨x.right, x.left⟩ := by
  cases dir with
  | forward => exact enc_of_zero h x
  | reverse =>
    have hback : enc kt ⟨x.right, x.left⟩ = x := enc_of_zero h _
    rw [transform_reverse, ← hback, dec_enc, hback]

/-- `F` is a function of the substitution words (R70). -/
theorem substitute_congr {kt kt' : KeyTable} (h : ∀ i, 18 ≤ i → i < 1042 → ktWord kt' i = ktWord kt i) (v : Word) :
    substitute kt' v = substitute kt v := by
  have hword (k : Fin 4) (j : Byte) : substWord kt' k j = substWord kt k j := by
    rw [substWord_eq_ktWord, substWord_eq_ktWord]
    exact h _ (by omega) (by omega)
  simp only [substitute, hword]

/-- `XFORM` changes `L`, `R` and `STATUS` alone (R75). -/
theorem exec_xform_eq (s : State) (dir : Direction) :
    exec (.xform dir) s = .next { s with
      l := (transform s.kt dir ⟨s.l, s.r⟩).left, r := (transform s.kt dir ⟨s.l, s.r⟩).right,
      status := completedWith 0 } :=
  exec_xform s dir

end Sys2Proof.Statements

namespace Sys2Proof.Proofs

open Sys2Proof.Machine Sys2Proof.Statements

/-- Settles O24: `LOOKUP` leaves `F(L)`, and `F` is a function of the substitution words. -/
theorem lookupReadsSubstitutionWordsOnly : Obligations.LookupReadsSubstitutionWordsOnly := by
  intro s s' hl hkt
  refine ⟨_, _, exec_lookup s, exec_lookup s', ?_, fun hzero => substitute_eq_zero hzero s.l⟩
  simp only [complete_l, setBlock_l, hl, substitute_congr hkt]

/-- Settles O25: the sequences of `runRounds_eq_sequences`, with the boundary words by their numbers; over a zero table
see `transform_of_zero`. -/
theorem xformRunsSixteenRounds : Obligations.XformRunsSixteenRounds := by
  intro s
  obtain ⟨a, b, ha, hb, hrec, hend⟩ := runRounds_eq_sequences s.kt ⟨s.l, s.r⟩ rfl forwardRounds_getElem
  obtain ⟨a', b', ha', hb', hrec', hend'⟩ :=
    runRounds_eq_sequences s.kt (key := fun i => 17 - i) ⟨s.l, s.r⟩ rfl reverseRounds_getElem
  refine ⟨⟨a, b, ha, hb, hrec, ?_⟩, ⟨a', b', ha', hb', hrec', ?_⟩, fun hzero dir => ?_⟩
  · rw [exec_xform_eq, transform_forward, enc_eq_boundary, boundary_eq_formula, hend]
    rfl
  · rw [exec_xform_eq, transform_reverse, dec_eq_boundary, boundary_eq_formula, hend']
    rfl
  · rw [exec_xform_eq, transform_of_zero hzero]

/-- Settles O26: `dec_enc` and `enc_dec`, on the block the first command leaves in `L` and `R`. -/
theorem xformInBothOrdersRestoresTheBlock : Obligations.XformInBothOrdersRestoresTheBlock := by
  refine fun s => ⟨⟨_, _, exec_xform_eq s _, exec_xform_eq _ _, ?_, ?_, rfl⟩,
    ⟨_, _, exec_xform_eq s _, exec_xform_eq _ _, ?_, ?_, rfl⟩⟩
  · exact congrArg Block.left (dec_enc s.kt ⟨s.l, s.r⟩)
  · exact congrArg Block.right (dec_enc s.kt ⟨s.l, s.r⟩)
  · exact congrArg Block.left (enc_dec s.kt ⟨s.l, s.r⟩)
  · exact congrArg Block.right (enc_dec s.kt ⟨s.l, s.r⟩)

end Sys2Proof.Proofs
end

section
/-! SUPPORT. The commands of the derivation that build on others: what a mutation reads of the triple, and `MIXSTEP`,
`INIT2` and `INIT0` by the commands they stand for (40_key_table_derivation.md R62, R65, R68, R69). -/

namespace Sys2Proof.Machine

/-- Phase 1 of a mutation reads the first two words of the triple alone (R63). -/
theorem mutatePhase1_congr (kt : KeyTable) {d d' : Triple} (h0 : d'.d0 = d.d0) (h1 : d'.d1 = d.d1) :
    mutatePhase1 kt d' = mutatePhase1 kt d := by
  have hxor (j : Nat) : xorWord d' j = xorWord d j := by rw [xorWord_eq_bswap32, xorWord_eq_bswap32, h0, h1]
  unfold mutatePhase1
  simp only [hxor]

theorem mutateTable_congr (kt : KeyTable) {d d' : Triple} (h0 : d'.d0 = d.d0) (h1 : d'.d1 = d.d1) :
    mutateTable kt d' = mutateTable kt d :=
  congrArg mutatePhase2 (mutatePhase1_congr kt h0 h1)

end Sys2Proof.Machine

namespace Sys2Proof.Proofs

open Sys2Proof.Machine Sys2Proof.Statements

/-- Settles O33: `mutateTable_congr` on two triples with the same first two words. -/
theorem mutateIgnoresTheThirdWord : Obligations.MutateIgnoresTheThirdWord :=
  fun s _ => ⟨_, _, exec_mutate s, exec_mutate _, mutateTable_congr s.kt rfl rfl⟩

/-- Settles O34: the triple is `conditionTriple` of the old table, and the table is `MUTATE`'s with it. -/
theorem mixstepConditionsThenMutates : Obligations.MixstepConditionsThenMutates := by
  refine ⟨rfl, fun s => ⟨_, _, exec_mixstep s, ?d2, ?d1, ?d0, exec_mutate _, ?table, ?frame⟩,
    fun s hzero => ⟨_, exec_mixstep s, conditionTriple_of_zero hzero s.d⟩⟩
  case frame => apply State.ext <;> simp [completedWith, ResultCode.number]
  all_goals simp [mixStep, conditionTriple]

/-- Settles O36: `RESHIFT` and `MIXSTEP` are the stages of `init2`. -/
theorem init2IsReshiftMixstep : Obligations.Init2IsReshiftMixstep := by
  refine ⟨rfl, fun s => ⟨_, _, _, exec_reshift s, exec_mixstep _, exec_init2 s, ?_, ?_, ?_⟩⟩
  · simp [init2]
  · simp [init2]
  · apply State.ext <;> simp [completedWith, ResultCode.number]

/-- Settles O37: `INIT0` writes the key state `INIT1` writes, and the salt step reads its table. -/
theorem init0IsInit1AndTheSaltStep : Obligations.Init0IsInit1AndTheSaltStep := by
  refine ⟨rfl, fun s => ⟨_, _, exec_init1 s, exec_init0 s, ?_, ?_, ?_, ?_⟩⟩
  · simp
  · simp
  · simp [saltWords]
  · apply State.ext <;> simp [completedWith, ResultCode.number]

end Sys2Proof.Proofs
end

section
/-! SUPPORT. The codec commands: what they read, the one record update each is, and what they leave of each block of the
region (42_secure_area_codec.md R80 to R85). -/

namespace Sys2Proof.Machine

/-! ### What the codec reads -/

/-- Two states agree in the game code and in every byte of `BUF`, its free bytes included. -/
structure SameRegion (s s' : State) : Prop where
  gc        : s'.gc = s.gc
  buf       : s'.buf = s.buf
  resetDraw : s'.resetDraw = s.resetDraw

theorem blockAt_congr {s t : State} (hb : t.buf = s.buf) (hr : t.resetDraw = s.resetDraw) (off : Nat) :
    blockAt t off = blockAt s off :=
  blockAt_of_bufByte fun o _ _ => bufByte_congr hb hr o

section SameRegion

variable {s s' : State} (h : SameRegion s s')
include h

theorem SameRegion.blockAt_eq (off : Nat) : blockAt s' off = blockAt s off := blockAt_congr h.buf h.resetDraw off

theorem SameRegion.setBufByte (o : Nat) (v : Byte) : SameRegion (setBufByte o v s) (setBufByte o v s') :=
  ⟨by simp [h.gc], by rw [setBufByte_buf, setBufByte_buf, h.buf], by simp [h.resetDraw]⟩

theorem SameRegion.writeBlockAt (off : Nat) (x : Block) :
    SameRegion (writeBlockAt off x s) (writeBlockAt off x s') := by
  unfold Machine.writeBlockAt memWrite
  iterate 8 apply SameRegion.setBufByte
  exact h

theorem SameRegion.xbuf (kt : KeyTable) (dir : Direction) (off : Nat) :
    SameRegion (xbuf kt dir off s) (xbuf kt dir off s') := by
  rw [Machine.xbuf, Machine.xbuf, h.blockAt_eq]
  exact h.writeBlockAt off _

theorem SameRegion.foldl_xbuf (kt : KeyTable) (dir : Direction) (offs : List Nat) :
    SameRegion (offs.foldl (fun s off => Machine.xbuf kt dir off s) s)
      (offs.foldl (fun s off => Machine.xbuf kt dir off s) s') := by
  induction offs generalizing s s' with
  | nil => exact h
  | cons off offs ih => exact ih (h.xbuf kt dir off)

theorem SameRegion.xstrides (kt : KeyTable) (dir : Direction) :
    SameRegion (xstrides kt dir s) (xstrides kt dir s') := by
  unfold Machine.xstrides
  exact h.foldl_xbuf kt dir strideOffsets

theorem SameRegion.sadecHeader (seed : KeyTable) : SameRegion (sadecHeader seed s) (sadecHeader seed s') := by
  rw [Machine.sadecHeader, Machine.sadecHeader, h.gc]
  exact (h.xbuf _ _ _).xbuf _ _ _

theorem SameRegion.sadecStrides (seed : KeyTable) : SameRegion (sadecStrides seed s) (sadecStrides seed s') := by
  rw [Machine.sadecStrides, Machine.sadecStrides, h.gc]
  exact (h.writeBlockAt 0 _).xstrides _ _

theorem SameRegion.saencBody (seed : KeyTable) : SameRegion (saencBody seed s) (saencBody seed s') := by
  rw [Machine.saencBody, Machine.saencBody, h.gc]
  exact (((h.xstrides _ _).writeBlockAt 0 _).xbuf _ _ _).xbuf _ _ _

theorem SameRegion.sadec (seed : KeyTable) :
    (sadec seed s').buf = (sadec seed s).buf ∧ (sadec seed s').status = (sadec seed s).status := by
  have hhead := h.sadecHeader seed
  by_cases hmagic : blockAt (Machine.sadecHeader seed s) 0 = ⟨magic1, magic0⟩
  · rw [sadec_of_magic hmagic, sadec_of_magic ((hhead.blockAt_eq 0).trans hmagic)]
    simp [(hhead.sadecStrides seed).buf]
  · have hmagic' : blockAt (Machine.sadecHeader seed s') 0 ≠ ⟨magic1, magic0⟩ := by rwa [hhead.blockAt_eq]
    rw [sadec_of_mismatch hmagic, sadec_of_mismatch hmagic']
    simp [hhead.buf]

theorem SameRegion.saenc (seed : KeyTable) :
    (saenc seed s').buf = (saenc seed s).buf ∧ (saenc seed s').status = (saenc seed s).status := by
  by_cases hsent : blockAt s 0 = ⟨sentinel, sentinel⟩
  · rw [saenc_of_sentinel hsent, saenc_of_sentinel ((h.blockAt_eq 0).trans hsent)]
    simp [(h.saencBody seed).buf]
  · have hsent' : blockAt s' 0 ≠ ⟨sentinel, sentinel⟩ := by rwa [h.blockAt_eq]
    rw [saenc_of_not_sentinel hsent, saenc_of_not_sentinel hsent']
    simp [h.buf]

end SameRegion

/-! ### What the codec writes -/

section Frame

variable (seed : KeyTable) (s : State)

theorem sadecHeader_eq : sadecHeader seed s = { s with buf := (sadecHeader seed s).buf } := by
  apply State.ext <;> simp [sadecHeader]

theorem sadecStrides_sadecHeader_eq : sadecStrides seed (sadecHeader seed s) =
    { s with buf := (sadecStrides seed (sadecHeader seed s)).buf } := by
  apply State.ext <;> simp [sadecStrides, sadecHeader]

theorem saencBody_eq : saencBody seed s = { s with buf := (saencBody seed s).buf } := by
  apply State.ext <;> simp [saencBody]

/-- `SADEC` writes `BUF`, loses the cipher state and completes, with either code (R85). -/
theorem sadec_eq : ∃ code, sadec seed s = complete code (loseCipherState { s with buf := (sadec seed s).buf }) := by
  by_cases hmagic : blockAt (sadecHeader seed s) 0 = ⟨magic1, magic0⟩
  · refine ⟨.ok, ?_⟩
    rw [sadec_of_magic hmagic, complete_buf, loseCipherState_buf, ← sadecStrides_sadecHeader_eq]
  · refine ⟨.decryptionMismatch, ?_⟩
    rw [sadec_of_mismatch hmagic, complete_buf, loseCipherState_buf, ← sadecHeader_eq]

/-- `SAENC` writes `BUF`, loses the cipher state and completes, or does no more than complete with code 3 (R85). -/
theorem saenc_eq : saenc seed s = complete .ok (loseCipherState { s with buf := (saenc seed s).buf }) ∨
    saenc seed s = complete .alreadyEncryptedPrecondition s := by
  by_cases hsent : blockAt s 0 = ⟨sentinel, sentinel⟩
  · left
    rw [saenc_of_sentinel hsent, complete_buf, loseCipherState_buf, ← saencBody_eq]
  · exact .inr (saenc_of_not_sentinel hsent)

end Frame

/-- Neither command writes beyond the region (R83). -/
theorem bufByte_sadec_outside (seed : KeyTable) (s : State) {o : Nat} (h : bufSize ≤ o) :
    bufByte (sadec seed s) o = bufByte s o := by
  have ho : 8 ≤ o := le_trans (by decide) h
  by_cases hmagic : blockAt (sadecHeader seed s) 0 = ⟨magic1, magic0⟩
  · rw [sadec_of_magic hmagic, bufByte_complete, bufByte_loseCipherState, sadecStrides,
      bufByte_xstrides_other _ _ _ (.inr h), bufByte_writeHeader_other _ _ _ ho, bufByte_sadecHeader_other _ _ ho]
  · rw [sadec_of_mismatch hmagic, bufByte_complete, bufByte_loseCipherState, bufByte_sadecHeader_other _ _ ho]

theorem bufByte_saenc_outside (seed : KeyTable) (s : State) {o : Nat} (h : bufSize ≤ o) :
    bufByte (saenc seed s) o = bufByte s o := by
  have ho : 8 ≤ o := le_trans (by decide) h
  by_cases hsent : blockAt s 0 = ⟨sentinel, sentinel⟩
  · rw [saenc_of_sentinel hsent, bufByte_complete, bufByte_loseCipherState, saencBody, bufByte_xbuf_other _ (.inr ho),
      bufByte_xbuf_other _ (.inr ho), bufByte_writeHeader_other _ _ _ ho, bufByte_xstrides_other _ _ _ (.inr h)]
  · rw [saenc_of_not_sentinel hsent, bufByte_complete]

/-! ### The blocks the codec leaves -/

theorem blockAt_complete (code : ResultCode) (s : State) (off : Nat) : blockAt (complete code s) off = blockAt s off :=
  blockAt_congr (complete_buf code s) (complete_resetDraw code s) off

theorem blockAt_loseCipherState (s : State) (off : Nat) : blockAt (loseCipherState s) off = blockAt s off :=
  blockAt_congr (loseCipherState_buf s) (loseCipherState_resetDraw s) off

section Blocks

variable (seed : KeyTable) {s : State}

theorem blockAt_sadec_header (h : blockAt (sadecHeader seed s) 0 = ⟨magic1, magic0⟩) :
    blockAt (sadec seed s) 0 = ⟨sentinel, sentinel⟩ := by
  rw [sadec_of_magic h, blockAt_complete, blockAt_loseCipherState, sadecStrides, blockAt_xstrides_header,
    blockAt_writeHeader]

theorem blockAt_sadec_stride (h : blockAt (sadecHeader seed s) 0 = ⟨magic1, magic0⟩) {k : Nat} (hk : k < 255) :
    blockAt (sadec seed s) (8 + 8 * k) = dec (init2 (init1 seed s.gc)).kt (blockAt s (8 + 8 * k)) := by
  have hgc : (sadecHeader seed s).gc = s.gc := by rw [sadecHeader_eq]
  have hbefore : blockAt (writeHeader sentinel sentinel (sadecHeader seed s)) (8 + 8 * k) = blockAt s (8 + 8 * k) :=
    blockAt_of_bufByte fun o ho _ => by
      rw [bufByte_writeHeader_other _ _ _ (by omega), bufByte_sadecHeader_other _ _ (by omega)]
  rw [sadec_of_magic h, blockAt_complete, blockAt_loseCipherState, sadecStrides, blockAt_xstrides _ _ _ hk, hgc,
    hbefore, transform_reverse]

theorem blockAt_saenc_header (h : blockAt s 0 = ⟨sentinel, sentinel⟩) :
    blockAt (saenc seed s) 0 =
      enc (init1 seed s.gc).kt (enc (init2 (init1 seed s.gc)).kt ⟨magic1, magic0⟩) := by
  rw [saenc_of_sentinel h, blockAt_complete, blockAt_loseCipherState, saencBody, blockAt_xbuf_same _ (by decide),
    blockAt_xbuf_same _ (by decide), blockAt_writeHeader, transform_forward, transform_forward]

theorem blockAt_saenc_stride (h : blockAt s 0 = ⟨sentinel, sentinel⟩) {k : Nat} (hk : k < 255) :
    blockAt (saenc seed s) (8 + 8 * k) = enc (init2 (init1 seed s.gc)).kt (blockAt s (8 + 8 * k)) := by
  rw [saenc_of_sentinel h, blockAt_complete, blockAt_loseCipherState, saencBody, blockAt_xbuf_other _ (.inr (by omega)),
    blockAt_xbuf_other _ (.inr (by omega)), writeHeader_eq_writeBlockAt,
    blockAt_writeBlockAt_other _ _ (.inr (by omega)), blockAt_xstrides _ _ _ hk, transform_forward]

end Blocks

/-- The header block and the strides make up the region. -/
theorem bufByte_of_blocks {s t : State} (h0 : blockAt t 0 = blockAt s 0)
    (hk : ∀ k, k < 255 → blockAt t (8 + 8 * k) = blockAt s (8 + 8 * k)) {o : Nat} (ho : o < bufSize) :
    bufByte t o = bufByte s o := by
  by_cases hhead : o < 8
  · exact bufByte_of_blockAt h0 (Nat.zero_le o) hhead
  · have hlt : (o - 8) / 8 < 255 := by rw [bufSize] at ho; omega
    exact bufByte_of_blockAt (hk _ hlt) (by omega) (by omega)

theorem sadec_result_eq_zero_iff {seed : KeyTable} {s : State} :
    (sadec seed s).status.result = 0 ↔ blockAt (sadecHeader seed s) 0 = ⟨magic1, magic0⟩ := by
  rw [sadec_result]
  split_ifs with h <;> simp [h]

theorem saenc_result_eq_zero_iff {seed : KeyTable} {s : State} :
    (saenc seed s).status.result = 0 ↔ blockAt s 0 = ⟨sentinel, sentinel⟩ := by
  rw [saenc_result]
  split_ifs with h <;> simp [h]

/-- `INIT1` and then `INIT2` leave the two tables the codec derives for itself. -/
theorem exec_init1_init2_tables (s : State) : ∃ a b, exec .init1 s = .next a ∧ exec .init2 a = .next b ∧
    a.kt = (init1 seedTable s.gc).kt ∧ b.kt = (init2 (init1 seedTable s.gc)).kt :=
  ⟨_, _, exec_init1 s, exec_init2 _, by simp, by simp⟩

end Sys2Proof.Machine

namespace Sys2Proof.Proofs

open Sys2Proof.Machine Sys2Proof.Statements

/-- Settles O38: the check is one of `blockAt_sadecHeader`, and either outcome's blocks are those of `sadec`. -/
theorem sadecDecryptsTheRegion : Obligations.SadecDecryptsTheRegion := by
  intro s
  obtain ⟨a, b, ha, hb, hakt, hbkt⟩ := exec_init1_init2_tables s
  refine ⟨a, b, _, ha, hb, exec_sadec s, ?_⟩
  rw [hakt, hbkt, ← blockAt_sadecHeader]
  refine ⟨fun hmagic => ⟨?_, blockAt_sadec_header seedTable hmagic, fun k => blockAt_sadec_stride seedTable hmagic⟩,
    fun hmismatch => ?_, fun o => bufByte_sadec_outside seedTable s, ?_⟩
  · rw [sadec_of_magic hmagic]; rfl
  · rw [sadec_of_mismatch hmismatch]
    refine ⟨rfl, ?_, fun o ho => ?_⟩
    · rw [blockAt_complete, blockAt_loseCipherState]
    · rw [bufByte_complete, bufByte_loseCipherState, bufByte_sadecHeader_other seedTable s ho]
  · obtain ⟨code, heq⟩ := sadec_eq seedTable s
    rw [heq]
    rfl

/-- Settles O39: a failed check only completes, and a passed one leaves the blocks of `saenc`. -/
theorem saencEncryptsTheRegion : Obligations.SaencEncryptsTheRegion := by
  intro s
  obtain ⟨a, b, ha, hb, hakt, hbkt⟩ := exec_init1_init2_tables s
  refine ⟨a, b, _, ha, hb, exec_saenc s, ?_⟩
  rw [hakt, hbkt]
  refine ⟨fun hother => saenc_of_not_sentinel hother,
    fun hsent => ⟨?_, blockAt_saenc_header seedTable hsent, fun k => blockAt_saenc_stride seedTable hsent⟩,
    fun o => bufByte_saenc_outside seedTable s, ?_⟩
  · rw [saenc_of_sentinel hsent]; rfl
  · obtain heq | heq := saenc_eq seedTable s <;> rw [heq] <;> rfl

/-- Settles O42: the failed check has written `STATUS` alone, so the second attempt finds the same header. -/
theorem failedSaencRepeats : Obligations.FailedSaencRepeats := by
  intro s t h h3
  obtain rfl : saenc seedTable s = t := Host.Outcome.next.inj h
  rw [saenc_result_eq_three_iff] at h3
  rw [saenc_of_not_sentinel h3, exec_saenc, saenc_of_not_sentinel (by rwa [blockAt_complete])]
  exact ⟨rfl, rfl⟩

/-- Settles O43: each block is met by one transform and then by its inverse over the same table, and the header each
command leaves is the one the other asks for. -/
theorem encryptAndDecryptRestoreTheBuffer : Obligations.EncryptAndDecryptRestoreTheBuffer := by
  refine ⟨fun s t s' h h0 hgc hbuf hdraw => ⟨_, exec_sadec s', ?_⟩,
    fun s t s' h h0 hgc hbuf hdraw => ⟨_, exec_saenc s', ?_⟩⟩
  · obtain rfl : saenc seedTable s = t := Host.Outcome.next.inj h
    rw [saenc_result_eq_zero_iff] at h0
    have hmagic : blockAt (sadecHeader seedTable s') 0 = ⟨magic1, magic0⟩ := by
      rw [blockAt_sadecHeader, blockAt_congr hbuf hdraw, blockAt_saenc_header seedTable h0, hgc, dec_enc, dec_enc]
    refine ⟨sadec_result_eq_zero_iff.2 hmagic, fun o => bufByte_of_blocks ?_ fun k hk => ?_⟩
    · rw [blockAt_sadec_header seedTable hmagic, h0]
    · rw [blockAt_sadec_stride seedTable hmagic hk, blockAt_congr hbuf hdraw, blockAt_saenc_stride seedTable h0 hk, hgc,
        dec_enc]
  · obtain rfl : sadec seedTable s = t := Host.Outcome.next.inj h
    rw [sadec_result_eq_zero_iff] at h0
    have hsent : blockAt s' 0 = ⟨sentinel, sentinel⟩ := by
      rw [blockAt_congr hbuf hdraw, blockAt_sadec_header seedTable h0]
    refine ⟨saenc_result_eq_zero_iff.2 hsent, fun o => bufByte_of_blocks ?_ fun k hk => ?_⟩
    · rw [blockAt_saenc_header seedTable hsent, ← h0, blockAt_sadecHeader, hgc, enc_dec, enc_dec]
    · rw [blockAt_saenc_stride seedTable hsent hk, blockAt_congr hbuf hdraw, blockAt_sadec_stride seedTable h0 hk, hgc,
        enc_dec]

/-- Settles O44: `SameRegion` is all the codec reads. -/
theorem codecDependsOnGameCodeAndBufferAlone : Obligations.CodecDependsOnGameCodeAndBufferAlone := by
  intro i s s' hi hgc hbuf hdraw
  have h : SameRegion s s' := ⟨hgc, hbuf, hdraw⟩
  obtain rfl | rfl := hi
  · exact ⟨_, _, exec_sadec s, exec_sadec s', h.sadec seedTable⟩
  · exact ⟨_, _, exec_saenc s, exec_saenc s', h.saenc seedTable⟩

/-- Settles O45: the blocks `saenc` leaves are functions of the game code and of the block before. -/
theorem ciphertextBlocksAreIndependent : Obligations.CiphertextBlocksAreIndependent := by
  intro s s' t t' hgc h h' h0 h0'
  obtain rfl : saenc seedTable s = t := Host.Outcome.next.inj h
  obtain rfl : saenc seedTable s' = t' := Host.Outcome.next.inj h'
  rw [saenc_result_eq_zero_iff] at h0 h0'
  refine ⟨?_, fun k hk hplain => ?_⟩
  · rw [blockAt_saenc_header seedTable h0, blockAt_saenc_header seedTable h0', hgc]
  · rw [blockAt_saenc_stride seedTable h0 hk, blockAt_saenc_stride seedTable h0' hk, hgc, hplain]

end Sys2Proof.Proofs
end

section
/-! SUPPORT. What every command does: it completes, it reads no `STATUS`, it keeps the buffer's form, and it leaves what
it does not name (10_state.md sections 4 and 8, 60_exceptions.md R97). -/

namespace Sys2Proof.Machine

/-! ### Completion -/

theorem exec_total (i : Instr) (s : State) : ∃ t, exec i s = .next t := by
  cases i <;> exact ⟨_, rfl⟩

/-- A command ends in `complete` (R97). -/
theorem exec_completes {i : Instr} {s t : State} (h : exec i s = .next t) : ∃ code u, t = complete code u := by
  cases i with
  | sadec =>
    obtain ⟨code, heq⟩ := sadec_eq seedTable s
    exact ⟨code, _, (Host.Outcome.next.inj h).symm.trans heq⟩
  | saenc =>
    obtain heq | heq := saenc_eq seedTable s
    · exact ⟨_, _, (Host.Outcome.next.inj h).symm.trans heq⟩
    · exact ⟨_, _, (Host.Outcome.next.inj h).symm.trans heq⟩
  | _ => exact ⟨.ok, _, (Host.Outcome.next.inj h).symm⟩

theorem exec_status {i : Instr} {s t : State} (h : exec i s = .next t) :
    t.status.busy = false ∧ t.status.done = true := by
  obtain ⟨code, u, rfl⟩ := exec_completes h
  exact ⟨rfl, rfl⟩

/-! ### No command reads `STATUS` -/

theorem sadec_with_status (seed : KeyTable) (s : State) (st : Status) :
    sadec seed { s with status := st } = sadec seed s := by
  obtain ⟨hbuf, hstatus⟩ := SameRegion.sadec (s := s) (s' := { s with status := st }) ⟨rfl, rfl, rfl⟩ seed
  obtain ⟨code, heq⟩ := sadec_eq seed s
  obtain ⟨code', heq'⟩ := sadec_eq seed { s with status := st }
  have hcode : code'.number = code.number := by
    rw [heq, heq', complete_status, complete_status] at hstatus
    exact congrArg Status.result hstatus
  rw [hbuf] at heq'
  rw [heq', heq]
  apply State.ext <;> simp [hcode]

theorem saenc_with_status (seed : KeyTable) (s : State) (st : Status) :
    saenc seed { s with status := st } = saenc seed s := by
  have h : SameRegion s { s with status := st } := ⟨rfl, rfl, rfl⟩
  by_cases hsent : blockAt s 0 = ⟨sentinel, sentinel⟩
  · rw [saenc_of_sentinel hsent, saenc_of_sentinel ((h.blockAt_eq 0).trans hsent), saencBody_eq, (h.saencBody seed).buf,
      saencBody_eq seed s]
    apply State.ext <;> simp
  · rw [saenc_of_not_sentinel hsent, saenc_of_not_sentinel (mt (h.blockAt_eq 0).symm.trans hsent)]
    rfl

theorem exec_with_status (i : Instr) (s : State) (st : Status) : exec i { s with status := st } = exec i s := by
  cases i with
  | sadec => exact congrArg Host.Outcome.next (sadec_with_status seedTable s st)
  | saenc => exact congrArg Host.Outcome.next (saenc_with_status seedTable s st)
  | _ => rfl

/-! ### The buffer and the host's side -/

/-- No command writes `GC`, `CMDREG`, the host's side or the choice of the free bytes. -/
theorem exec_frame {i : Instr} {s t : State} (h : exec i s = .next t) :
    t.gc = s.gc ∧ t.cmdReg = s.cmdReg ∧ t.host = s.host ∧ t.hostData = s.hostData ∧ t.resetDraw = s.resetDraw := by
  cases i with
  | sadec =>
    obtain rfl : sadec seedTable s = t := Host.Outcome.next.inj h
    obtain ⟨code, heq⟩ := sadec_eq seedTable s
    rw [heq]
    simp
  | saenc =>
    obtain rfl : saenc seedTable s = t := Host.Outcome.next.inj h
    obtain heq | heq := saenc_eq seedTable s <;> rw [heq] <;> simp
  | _ => cases h; simp

/-- Only the codec writes `BUF`. -/
theorem exec_buf {i : Instr} {s t : State} (h : exec i s = .next t) (h1 : i ≠ .sadec) (h2 : i ≠ .saenc) :
    t.buf = s.buf := by
  cases i with
  | sadec => exact absurd rfl h1
  | saenc => exact absurd rfl h2
  | _ => cases h; simp

theorem exec_bufByte_outside {i : Instr} {s t : State} (h : exec i s = .next t) {o : Nat} (ho : bufSize ≤ o) :
    bufByte t o = bufByte s o := by
  cases i with
  | sadec => exact Host.Outcome.next.inj h ▸ bufByte_sadec_outside seedTable s ho
  | saenc => exact Host.Outcome.next.inj h ▸ bufByte_saenc_outside seedTable s ho
  | _ =>
    obtain ⟨-, -, -, -, hdraw⟩ := exec_frame h
    exact bufByte_congr (exec_buf h nofun nofun) hdraw o

theorem sadec_wf (seed : KeyTable) {s : State} (h : s.buf.wf) : (sadec seed s).buf.wf := by
  by_cases hmagic : blockAt (sadecHeader seed s) 0 = ⟨magic1, magic0⟩
  · rw [sadec_of_magic hmagic, complete_buf, loseCipherState_buf]
    exact sadecStrides_wf seed (sadecHeader_wf seed h)
  · rw [sadec_of_mismatch hmagic, complete_buf, loseCipherState_buf]
    exact sadecHeader_wf seed h

theorem saenc_wf (seed : KeyTable) {s : State} (h : s.buf.wf) : (saenc seed s).buf.wf := by
  by_cases hsent : blockAt s 0 = ⟨sentinel, sentinel⟩
  · rw [saenc_of_sentinel hsent, complete_buf, loseCipherState_buf]
    exact saencBody_wf seed h
  · rw [saenc_of_not_sentinel hsent, complete_buf]
    exact h

theorem exec_wf {i : Instr} {s t : State} (h : exec i s = .next t) (hwf : s.buf.wf) : t.buf.wf := by
  cases i with
  | sadec => exact Host.Outcome.next.inj h ▸ sadec_wf seedTable hwf
  | saenc => exact Host.Outcome.next.inj h ▸ saenc_wf seedTable hwf
  | _ => rw [exec_buf h nofun nofun]; exact hwf

/-! ### The registers -/

theorem exec_kt {i : Instr} {s t : State} (h : exec i s = .next t)
    (hi : i = .derive ∨ i = .reshift ∨ i = .lookup ∨ ∃ dir, i = .xform dir) : t.kt = s.kt := by
  obtain rfl | rfl | rfl | ⟨dir, rfl⟩ := hi <;> cases h <;> simp

theorem exec_d {i : Instr} {s t : State} (h : exec i s = .next t)
    (hi : i = .seed ∨ i = .mutate ∨ i = .lookup ∨ ∃ dir, i = .xform dir) : t.d = s.d := by
  obtain rfl | rfl | rfl | ⟨dir, rfl⟩ := hi <;> cases h <;> simp

theorem exec_l {i : Instr} {s t : State} (h : exec i s = .next t) (hi : i = .seed ∨ i = .derive ∨ i = .reshift) :
    t.l = s.l := by
  obtain rfl | rfl | rfl := hi <;> cases h <;> simp

theorem exec_r {i : Instr} {s t : State} (h : exec i s = .next t)
    (hi : i = .seed ∨ i = .derive ∨ i = .reshift ∨ i = .lookup) : t.r = s.r := by
  obtain rfl | rfl | rfl | rfl := hi <;> cases h <;> simp

theorem exec_salt {i : Instr} {s t : State} (h : exec i s = .next t) (hi : i ≠ .init0) :
    t.salt0 = s.salt0 ∧ t.salt1 = s.salt1 := by
  cases i with
  | init0 => exact absurd rfl hi
  | sadec =>
    obtain rfl : sadec seedTable s = t := Host.Outcome.next.inj h
    obtain ⟨code, heq⟩ := sadec_eq seedTable s
    rw [heq]
    simp
  | saenc =>
    obtain rfl : saenc seedTable s = t := Host.Outcome.next.inj h
    obtain heq | heq := saenc_eq seedTable s <;> rw [heq] <;> simp
  | _ => cases h; simp

end Sys2Proof.Machine

namespace Sys2Proof.Proofs

open Sys2Proof.Machine Sys2Proof.Statements

/-- Settles O46: a command ends in `complete` with a code of `exec_result_cases`, which overwrites the `STATUS` no
command reads. -/
theorem everyCommandCompletesAndReadsNoStatus : Obligations.EveryCommandCompletesAndReadsNoStatus := by
  refine ⟨fun i s => ?_, exec_with_status, fun s hs he => ⟨_, step_of_illegal hs he, rfl⟩⟩
  obtain ⟨t, ht⟩ := exec_total i s
  obtain ⟨hbusy, hdone⟩ := exec_status ht
  refine ⟨t, ht, hbusy, hdone, ?_⟩
  obtain h0 | ⟨rfl, h2⟩ | ⟨rfl, h3⟩ := exec_result_cases ht
  · exact ⟨fun _ => .inl h0, fun _ => .inl h0, fun _ _ => h0⟩
  · exact ⟨fun _ => .inr h2, nofun, fun h => absurd rfl h⟩
  · exact ⟨nofun, fun _ => .inr h3, fun _ h => absurd rfl h⟩

/-- Settles O47: one lemma per element. -/
theorem commandsWriteOnlyWhatTheyName : Obligations.CommandsWriteOnlyWhatTheyName := by
  intro i s t h
  obtain ⟨hgc, hcmd, hhost, hdata, hdraw⟩ := exec_frame h
  exact ⟨hgc, hcmd, hhost, hdata, hdraw, exec_kt h, exec_d h, exec_l h, exec_r h, exec_salt h,
    fun h1 h2 => ⟨exec_buf h h1 h2, bufByte_congr (exec_buf h h1 h2) hdraw⟩, fun _ => exec_bufByte_outside h⟩

end Sys2Proof.Proofs
end

section
/-! SUPPORT. The host's moves: whose turn it is, which accesses go on and which are refused, what an access to the
buffer window reads and stores, and what a write leaves alone (10_state.md R25, R26, 20_memory.md R35). -/

namespace Sys2Proof.Machine

open Sys2Proof.Statements

/-! ### Whose turn it is -/

theorem step_of_host {s : State} {m : HostMove} {rest : List HostMove} (h : nextMover s = .host m rest) :
    step s = hostMove m { s with host := rest } := by rw [step, h]

/-- A move that is no wait is made at once, busy or not. -/
theorem step_of_move {s : State} {m : HostMove} {rest : List HostMove} (hh : s.host = m :: rest)
    (hm : m ≠ .awaitDone) : step s = hostMove m { s with host := rest } :=
  step_of_host (by simp [nextMover, hh, hm])

theorem step_of_command {s : State} {i : Instr} (hs : sequencerToMove s) (hd : decodeWord s.cmdReg = .ok i) :
    step s = exec i s := by
  rw [step, nextMover_of_sequencerToMove hs]
  simp only [currentCommand, hd]

/-! ### Which moves go on -/

theorem accessListed_iff {width : AccessWidth} {off : Nat} :
    accessListed width off = true ↔ listedAccess width off := by
  cases width <;> simp [accessListed, listedAccess, inBufWindow, and_comm]

theorem isStatusRead_read_iff {width : AccessWidth} {off : Nat} :
    isStatusRead (.read width off) = true ↔ width = .w32 ∧ off = 0x0004 := by
  cases width <;> simp [isStatusRead]

theorem hostMove_read_statusBusy {s : State} (hb : s.status.busy = true) :
    hostMove (.read .w32 0x0004) s = .next { s with hostData := (statusWord s.status).setWidth 64 } := by
  simp [hostMove, hb, isStatusRead, accessListed, readData, readWord, inBufWindow]

theorem hostMove_read_busy {s : State} {width : AccessWidth} {off : Nat} (hb : s.status.busy = true)
    (h : ¬(width = .w32 ∧ off = 0x0004)) : hostMove (.read width off) s = .refused .hostAccessWhileBusy := by
  have hno : isStatusRead (.read width off) = false := by rwa [Bool.eq_false_iff, ne_eq, isStatusRead_read_iff]
  simp [hostMove, hb, hno]

theorem hostMove_write_busy {s : State} {width : AccessWidth} {off : Nat} (v : BitVec 64) (hb : s.status.busy = true) :
    hostMove (.write width off v) s = .refused .hostAccessWhileBusy := by
  simp [hostMove, hb]

theorem hostMove_read_unlisted {s : State} {width : AccessWidth} {off : Nat} (hb : s.status.busy = false)
    (h : ¬listedAccess width off) : hostMove (.read width off) s = .refused .hostAccessNotListed := by
  rw [← accessListed_iff] at h
  simp [hostMove, hb, h]

theorem hostMove_write_unlisted {s : State} {width : AccessWidth} {off : Nat} (v : BitVec 64)
    (hb : s.status.busy = false) (h : ¬listedAccess width off) :
    hostMove (.write width off v) s = .refused .hostAccessNotListed := by
  rw [← accessListed_iff] at h
  simp [hostMove, hb, h]

/-- A move goes on exactly when the host may make it. -/
theorem hostMove_goesOn_iff (m : HostMove) (s : State) :
    (∃ t, hostMove m s = .next t) ↔ hostMayMake s m = true := by
  cases m with
  | reset => exact iff_of_true ⟨_, rfl⟩ rfl
  | awaitDone => exact iff_of_true ⟨_, rfl⟩ rfl
  | read width off =>
    simp only [hostMove, hostMayMake]
    cases accessListed width off <;> cases s.status.busy <;> cases isStatusRead (.read width off) <;> simp
  | write width off v =>
    simp only [hostMove, hostMayMake]
    cases accessListed width off <;> cases s.status.busy <;> simp

/-! ### What a write leaves alone -/

/-- A 32-bit write starts a command, or writes at most `GC`, `D`, `L`, `R` and `BUF` (R25). -/
theorem writeWord_cases (off : Nat) (w : Word) (s : State) :
    (off = 0x0000 ∧ writeWord off w s = issue w s) ∨
      ∃ gc d l r buf, writeWord off w s = { s with gc := gc, d := d, l := l, r := r, buf := buf } := by
  unfold writeWord
  split_ifs with hbuf
  · exact .inr ⟨_, _, _, _, _, memWrite_eq _ w s⟩
  · split
    case h_1 => exact .inl ⟨rfl, rfl⟩
    all_goals exact .inr ⟨_, _, _, _, _, rfl⟩

/-- A write starts a command, or writes at most `GC`, `D`, `L`, `R` and `BUF` (R25). -/
theorem writeData_cases (width : AccessWidth) (off : Nat) (v : BitVec 64) (s : State) :
    (width = .w32 ∧ off = 0x0000 ∧ writeData width off v s = issue (v.extractLsb' 0 32) s) ∨
      ∃ gc d l r buf, writeData width off v s = { s with gc := gc, d := d, l := l, r := r, buf := buf } := by
  cases width with
  | w8 => exact .inr ⟨_, _, _, _, _, setBufByte_eq _ _ s⟩
  | w16 => exact .inr ⟨_, _, _, _, _, by rw [writeData, setBufByte_eq, setBufByte_eq _ _ s]⟩
  | w32 =>
    obtain ⟨hoff, heq⟩ | hframe := writeWord_cases off (v.extractLsb' 0 32) s
    · exact .inl ⟨rfl, hoff, heq⟩
    · exact .inr hframe
  | w64 => exact .inr ⟨_, _, _, _, _, rfl⟩

theorem writeData_frame (width : AccessWidth) (off : Nat) (v : BitVec 64) (s : State) :
    (writeData width off v s).kt = s.kt ∧ (writeData width off v s).salt0 = s.salt0 ∧
      (writeData width off v s).salt1 = s.salt1 ∧ (writeData width off v s).draws = s.draws ∧
      (writeData width off v s).resetDraw = s.resetDraw ∧ (writeData width off v s).host = s.host := by
  obtain ⟨-, -, heq⟩ | ⟨gc, d, l, r, buf, heq⟩ := writeData_cases width off v s <;> rw [heq] <;> simp

theorem writeData_status {width : AccessWidth} {off : Nat} (v : BitVec 64) (s : State)
    (h : ¬(width = .w32 ∧ off = 0x0000)) :
    (writeData width off v s).status = s.status ∧ (writeData width off v s).cmdReg = s.cmdReg := by
  obtain ⟨hw, ho, -⟩ | ⟨gc, d, l, r, buf, heq⟩ := writeData_cases width off v s
  · exact absurd ⟨hw, ho⟩ h
  · rw [heq]
    exact ⟨rfl, rfl⟩

/-- The wait for `DONE` writes on the host's side alone. -/
theorem pollDone_eq (s : State) :
    pollDone s = { s with host := (pollDone s).host, hostData := (pollDone s).hostData } := by
  unfold pollDone
  split_ifs <;> rfl

end Sys2Proof.Machine

namespace Sys2Proof.Statements

open Sys2Proof.Machine

/-! ### The buffer window -/

/-- An aligned access of the window is listed (R35). -/
theorem listedAccess_window {width : AccessWidth} {o : Nat} (hw : width ≠ .w64) (ho : o < 0x800)
    (ha : o % widthBytes width = 0) : listedAccess width (0x3000 + o) := by
  cases width with
  | w64 => exact absurd rfl hw
  | w8 => exact .inr (.inl ⟨rfl, by omega⟩)
  | w16 => rw [widthBytes] at ha; exact .inr (.inr (.inl ⟨rfl, by omega⟩))
  | w32 => rw [widthBytes] at ha; exact .inl ⟨rfl, by omega⟩

/-- A read of the window returns the little-endian number of the bytes it moves (R31, R35). -/
theorem readData_window_toNat (s : State) {width : AccessWidth} {o : Nat} (hw : width ≠ .w64) (ho : o < 0x800) :
    (readData s width (0x3000 + o)).toNat = bufferValue s o (widthBytes width) := by
  cases width with
  | w64 => exact absurd rfl hw
  | w8 =>
    rw [readData, Nat.add_sub_cancel_left, BitVec.toNat_setWidth_of_le (by decide)]
    simp [widthBytes, bufferValue]
  | w16 =>
    rw [readData, Nat.add_sub_cancel_left, BitVec.toNat_setWidth_of_le (by decide), BitVec.toNat_append,
      Nat.shiftLeft_eq, Nat.mul_comm, ← Nat.two_pow_add_eq_or_of_lt (bufByte s o).isLt]
    simp [widthBytes, bufferValue, List.range_succ, Nat.add_comm]
  | w32 =>
    rw [readData, readWord_buffer s ho, BitVec.toNat_setWidth_of_le (by decide), memRead_toNat, widthBytes]

/-- Byte `k` of the data of an access. -/
theorem extractLsb'_data_toNat (x : BitVec 64) (k : Nat) :
    (x.extractLsb' (8 * k) 8).toNat = x.toNat / 2 ^ (8 * k) % 256 := by
  rw [BitVec.extractLsb'_toNat, Nat.shiftRight_eq_div_pow]

/-- A write of the window stores byte `k` of the data `k` offsets up, for as many bytes as it moves, and leaves every
other byte (R31, R35). -/
theorem writeData_window (s : State) {width : AccessWidth} {o : Nat} (x : BitVec 64) (hw : width ≠ .w64)
    (ho : o < 0x800) (ha : o % widthBytes width = 0) :
    (∀ k, k < widthBytes width →
      (bufByte (writeData width (0x3000 + o) x s) (o + k)).toNat = x.toNat / 2 ^ (8 * k) % 256) ∧
    (∀ p, p < o ∨ o + widthBytes width ≤ p → bufByte (writeData width (0x3000 + o) x s) p = bufByte s p) ∧
    writeData width (0x3000 + o) x s = { s with buf := (writeData width (0x3000 + o) x s).buf } := by
  cases width with
  | w64 => exact absurd rfl hw
  | w8 =>
    simp only [widthBytes, writeData, Nat.add_sub_cancel_left]
    refine ⟨fun k hk => ?_, fun p hp => bufByte_setBufByte_other _ s (by omega), setBufByte_eq _ _ s⟩
    obtain rfl : k = 0 := by omega
    rw [Nat.add_zero, bufByte_setBufByte_same _ s ho]
    exact extractLsb'_data_toNat x 0
  | w16 =>
    simp only [widthBytes, writeData, Nat.add_sub_cancel_left] at ha ⊢
    refine ⟨fun k hk => ?_, fun p hp => ?_, by apply State.ext <;> simp⟩
    · obtain rfl | rfl : k = 0 ∨ k = 1 := by omega
      · rw [Nat.add_zero o, bufByte_setBufByte_other _ _ (by omega), bufByte_setBufByte_same _ s ho]
        exact extractLsb'_data_toNat x 0
      · rw [bufByte_setBufByte_same _ _ (by rw [bufSize]; omega)]
        exact extractLsb'_data_toNat x 1
    · rw [bufByte_setBufByte_other _ _ (by omega), bufByte_setBufByte_other _ _ (by omega)]
  | w32 =>
    simp only [widthBytes, writeData, writeWord_buffer s _ ho] at ha ⊢
    have hin : o + 4 ≤ bufSize := by rw [bufSize]; omega
    refine ⟨fun k hk => ?_, fun p hp => bufByte_memWrite_other _ s hp, memWrite_eq o _ s⟩
    rw [bufByte_memWrite_toNat s _ hin hk, byteOf, BitVec.extractLsb'_toNat, Nat.shiftRight_zero]
    interval_cases k <;> omega

end Sys2Proof.Statements

namespace Sys2Proof.Proofs

open Sys2Proof.Machine Sys2Proof.Statements

/-- Settles O15: the access is made at once, and `hostMove` answers it by `BUSY` and by the list of R35. -/
theorem hostOnlyReadsStatusWhileBusy : Obligations.HostOnlyReadsStatusWhileBusy := by
  refine ⟨fun s rest hb hh => ?_, fun s width off rest hb hh hne => ?_, fun s width off x rest hb hh => ?_,
    fun s width off rest hb hh hl => ⟨_, step_read hb (accessListed_iff.2 hl) hh, rfl⟩,
    fun s width off x rest hb hh hl => ⟨_, step_write hb (accessListed_iff.2 hl) hh, ?_⟩⟩
  · rw [step_of_move hh nofun]
    exact hostMove_read_statusBusy hb
  · rw [step_of_move hh nofun]
    exact hostMove_read_busy hb hne
  · rw [step_of_move hh nofun]
    exact hostMove_write_busy x hb
  · obtain ⟨-, -, -, -, -, hhost⟩ := writeData_frame width off x { s with host := rest }
    exact hhost

/-- Settles O17: `readData_window_toNat` and `writeData_window` for the buffer window, the two halves for `BLK64`, and
the refusals of what R35 does not list. -/
theorem hostAccessWidths : Obligations.HostAccessWidths := by
  refine ⟨fun s width o rest hb hw ho ha hh => ?_, fun s width o x rest hb hw ho ha hh => ?_,
    fun s rest hb hh => step_read hb rfl hh, fun s x rest hb hh => step_write hb rfl hh,
    fun s width off rest hb hh hl => ?_, fun s width off x rest hb hh hl => ?_⟩
  · have hl := accessListed_iff.2 (listedAccess_window hw ho ha)
    exact ⟨_, step_read hb hl hh, readData_window_toNat s hw ho, rfl⟩
  · have hl := accessListed_iff.2 (listedAccess_window hw ho ha)
    obtain ⟨hstored, hother, heq⟩ := writeData_window { s with host := rest } x hw ho ha
    exact ⟨_, step_write hb hl hh, hstored, hother, heq⟩
  · rw [step_of_idle hb hh]
    exact hostMove_read_unlisted hb hl
  · rw [step_of_idle hb hh]
    exact hostMove_write_unlisted x hb hl

/-- Settles O19: nothing stops the sequencer or a core nobody moves, and a host move is `hostMove_goesOn_iff`. -/
theorem stepGoesOnUnlessTheHostBreaksProtocol : Obligations.StepGoesOnUnlessTheHostBreaksProtocol := by
  intro s
  cases hmover : nextMover s with
  | nobody => exact iff_of_true ⟨s, by rw [step, hmover]⟩ nofun
  | host m rest =>
    rw [step_of_host hmover, hostMove_goesOn_iff]
    refine ⟨fun h m' rest' heq => ?_, fun h => h m rest rfl⟩
    cases heq
    exact h
  | sequencer =>
    refine iff_of_true ?_ nofun
    simp only [step, hmover]
    cases currentCommand s with
    | ok i => exact exec_total i s
    | error e => exact ⟨_, rfl⟩

/-- Settles O20: a wait and a read write on the host's side alone, and a write is `writeData_frame`. -/
theorem hostNeverWritesTableSaltOrStatus : Obligations.HostNeverWritesTableSaltOrStatus := by
  intro s t m rest hmover hm ht
  rw [step_of_host hmover] at ht
  obtain ⟨hreset, -⟩ | ⟨-, rfl⟩ | ⟨width, off, -, -, -, rfl⟩ | ⟨width, off, v, rfl, -, -, rfl⟩ := hostMove_cases ht
  · exact absurd hreset hm
  · rw [pollDone_eq]
    exact ⟨rfl, rfl, rfl, rfl, rfl, fun _ => ⟨rfl, rfl⟩⟩
  · exact ⟨rfl, rfl, rfl, rfl, rfl, fun _ => ⟨rfl, rfl⟩⟩
  · obtain ⟨hkt, hs0, hs1, hdraws, hreset, -⟩ := writeData_frame width off v { s with host := rest }
    refine ⟨hkt, hs0, hs1, hdraws, hreset, fun hcmd => writeData_status v _ ?_⟩
    rintro ⟨rfl, rfl⟩
    exact hcmd v rfl

end Sys2Proof.Proofs
end

section
/-! SUPPORT. The invariant of the machine: a legal `STATUS` and `BUF` in its canonical form, kept by every step
(10_state.md sections 4 and 5). -/

namespace Sys2Proof.Machine

/-- A command leaves a legal `STATUS`, whatever it found. -/
theorem exec_status_legal {i : Instr} {s t : State} (h : exec i s = .next t) : t.status.legal := by
  obtain ⟨hbusy, hdone⟩ := exec_status h
  refine ⟨fun hb => absurd (hb.symm.trans hbusy) nofun, fun hd => absurd (hd.symm.trans hdone) nofun, ?_⟩
  obtain h0 | ⟨-, h2⟩ | ⟨-, h3⟩ := exec_result_cases h
  · exact .inl h0
  · exact .inr (.inl h2)
  · exact .inr (.inr (.inl h3))

theorem issue_status_legal (w : Word) (s : State) : (issue w s).status.legal :=
  ⟨fun _ => rfl, fun _ => rfl, .inl rfl⟩

theorem powerOn_legal (n : Nat) : (State.powerOn n).legal :=
  ⟨⟨nofun, fun _ => rfl, .inl rfl⟩, List.Pairwise.nil, nofun⟩

theorem applyReset_legal (s : State) : (applyReset s).legal := powerOn_legal s.draws

theorem writeData_legal (width : AccessWidth) (off : Nat) (v : BitVec 64) {s : State} (h : s.legal) :
    (writeData width off v s).legal := by
  obtain ⟨hstatus, hwf⟩ := h
  refine ⟨?_, writeData_wf width off v hwf⟩
  obtain ⟨-, -, heq⟩ | ⟨gc, d, l, r, buf, heq⟩ := writeData_cases width off v s <;> rw [heq]
  · exact issue_status_legal _ s
  · exact hstatus

theorem hostMove_legal {m : HostMove} {s t : State} (h : s.legal) (ht : hostMove m s = .next t) : t.legal := by
  obtain ⟨-, rfl⟩ | ⟨-, rfl⟩ | ⟨width, off, -, -, -, rfl⟩ | ⟨width, off, v, -, -, -, rfl⟩ := hostMove_cases ht
  · exact applyReset_legal s
  · rw [pollDone_eq]
    exact h
  · exact h
  · exact writeData_legal width off v h

end Sys2Proof.Machine

namespace Sys2Proof.Proofs

open Sys2Proof.Machine Sys2Proof.Statements

/-- Settles O48, by the four kinds of step of `step_cases`. -/
theorem everyStepKeepsTheStateLegal : Obligations.EveryStepKeepsTheStateLegal := by
  intro s t h ht
  have hwf : s.buf.wf := h.2
  obtain ⟨-, rfl⟩ | ⟨m, rest, -, hmove⟩ | ⟨-, i, -, hexec⟩ | ⟨-, -, rfl⟩ := step_cases ht
  · exact h
  · exact hostMove_legal (s := { s with host := rest }) h hmove
  · exact ⟨exec_status_legal hexec, exec_wf hexec hwf⟩
  · exact ⟨⟨nofun, nofun, .inr (.inr (.inr rfl))⟩, hwf⟩

/-- Settles O49: `STATUS` is 0 and no byte of `BUF` is listed. -/
theorem resetStateIsLegal : Obligations.ResetStateIsLegal := powerOn_legal 0

end Sys2Proof.Proofs
end

section
/-! SUPPORT. Runs of several steps: the script statement of a command in three, and the scripts made of it
(30_encoding.md R49, R50). -/

namespace Sys2Proof.Machine

open Sys2Proof.Statements

/-! ### Steps in a row -/

theorem runSteps_of_step {s t : State} (k : Nat) (h : step s = .next t) : runSteps (k + 1) s = runSteps k t := by
  rw [runSteps, h]

theorem runSteps_one {s t : State} (h : step s = .next t) : runSteps 1 s = .next t := runSteps_of_step 0 h

theorem runSteps_trans {m : Nat} {s t : State} (n : Nat) (h : runSteps m s = .next t) :
    runSteps (m + n) s = runSteps n t := by
  induction m generalizing s with
  | zero =>
    cases h
    rw [Nat.zero_add]
  | succ m ih =>
    rw [Nat.succ_add, runSteps]
    rw [runSteps] at h
    cases hstep : step s with
    | next u => rw [hstep] at h; exact ih h
    | fault r => cases r
    | refused r => rw [hstep] at h; cases h

/-! ### The word placed for a command -/

theorem tableWord_toNat (w : Word) : tableWord 32 w.toNat = w := by
  rw [tableWord, Nat.mod_eq_of_lt w.isLt, BitVec.ofNat_toNat, BitVec.setWidth_eq]

theorem hostWaiting_cases (pending : List HostMove) :
    hostWaiting pending = [] ∨ ∃ rest, hostWaiting pending = .awaitDone :: rest := by
  cases pending with
  | nil => exact .inl rfl
  | cons m rest =>
    simp only [hostWaiting]
    split_ifs with h
    · exact .inr ⟨rest, by rw [beq_iff_eq.1 h]⟩
    · exact .inr ⟨m :: rest, rfl⟩

theorem sequencerToMove_withFetchWord (s : State) (nbits w : Nat) : sequencerToMove (s.withFetchWord nbits w) :=
  ⟨rfl, hostWaiting_cases s.host⟩

/-! ### The script statement of a command -/

/-- The state in which the word of `i` has been written to `CMD` and the host waits for `DONE` (R18, R49). -/
def issued (i : Instr) (rest : List HostMove) (s : State) : State :=
  { s with cmdReg := encode i, status := ⟨true, false, 0⟩, host := .awaitDone :: rest }

/-- The state in which the host has read `DONE = 1` and goes on with its later moves (R49). -/
def polled (rest : List HostMove) (s : State) : State :=
  { s with host := rest, hostData := (statusWord s.status).setWidth 64 }

theorem step_cmdWrite {s : State} {i : Instr} {rest : List HostMove} (hb : s.status.busy = false)
    (hh : s.host = runCommand i ++ rest) : step s = .next (issued i rest s) := by
  have hword : ((encode i).setWidth 64).setWidth 32 = encode i := by
    rw [BitVec.setWidth_setWidth_of_le _ (by decide), BitVec.setWidth_eq]
  rw [writeDoes_cmd s (.awaitDone :: rest) _ hb hh, hword]
  rfl

theorem step_issued (i : Instr) (rest : List HostMove) (s : State) :
    step (issued i rest s) = exec i (issued i rest s) :=
  step_of_command ⟨rfl, .inr ⟨rest, rfl⟩⟩ (decodeWord_encode i)

theorem step_awaitDone {s : State} {rest : List HostMove} (hb : s.status.busy = false) (hd : s.status.done = true)
    (hh : s.host = .awaitDone :: rest) : step s = .next (polled rest s) := by
  rw [step_of_idle hb hh]
  simp [hostMove, pollDone, hd, polled]

/-- The script statement of a command is its word written, its meaning, and the poll (R49). -/
theorem runSteps_runCommand {s a : State} {i : Instr} {rest : List HostMove} (hb : s.status.busy = false)
    (hh : s.host = runCommand i ++ rest) (ha : exec i (issued i rest s) = .next a) :
    runSteps 3 s = .next (polled rest a) := by
  obtain ⟨hbusy, hdone⟩ := exec_status ha
  obtain ⟨-, -, hhost, -, -⟩ := exec_frame ha
  calc runSteps 3 s = runSteps 2 (issued i rest s) := runSteps_of_step 2 (step_cmdWrite hb hh)
    _ = runSteps 1 a := runSteps_of_step 1 ((step_issued i rest s).trans ha)
    _ = .next (polled rest a) := runSteps_one (step_awaitDone hbusy hdone hhost)

/-- The script statement of a command with more of the script after it. -/
theorem runSteps_runCommand_then (n : Nat) {s a : State} {i : Instr} {rest : List HostMove}
    {o : Host.Outcome State Fault Refusal} (hb : s.status.busy = false) (hh : s.host = runCommand i ++ rest)
    (ha : exec i (issued i rest s) = .next a) (h : runSteps n (polled rest a) = o) : runSteps (3 + n) s = o :=
  (runSteps_trans n (runSteps_runCommand hb hh ha)).trans h

/-! ### `BLK64` -/

theorem extractLsb'_append_halves (x : BitVec 64) : x.extractLsb' 32 32 ++ x.extractLsb' 0 32 = x :=
  (BitVec.extractLsb'_append_extractLsb'_eq_extractLsb' rfl).trans BitVec.extractLsb'_eq_self

theorem step_read_blk64 {s : State} {rest : List HostMove} (hb : s.status.busy = false)
    (hh : s.host = .read .w64 0x0010 :: rest) : step s = .next { s with host := rest, hostData := s.l ++ s.r } :=
  step_read hb rfl hh

theorem step_write_blk64 {s : State} {x : BitVec 64} {rest : List HostMove} (hb : s.status.busy = false)
    (hh : s.host = .write .w64 0x0010 x :: rest) :
    step s = .next { s with host := rest, l := x.extractLsb' 32 32, r := x.extractLsb' 0 32 } :=
  step_write hb rfl hh

/-- `BLK64` written, `XFORM`, `BLK64` read back (R77). -/
theorem runSteps_xform_blk64 (dir : Direction) {s : State} {x : BitVec 64} {rest : List HostMove}
    (hb : s.status.busy = false)
    (hh : s.host = .write .w64 0x0010 x :: (runCommand (.xform dir) ++ .read .w64 0x0010 :: rest)) :
    ∃ t y, runSteps 5 s = .next t ∧ t.host = rest ∧
      exec (.xform dir) { s with l := x.extractLsb' 32 32, r := x.extractLsb' 0 32 } = .next y ∧
      t.hostData = y.l ++ y.r ∧ t.kt = s.kt := by
  exact ⟨_, _,
    (runSteps_of_step 4 (step_write_blk64 hb hh)).trans <|
    runSteps_runCommand_then 1 (rest := .read .w64 0x0010 :: rest) hb rfl (exec_xform_eq _ dir) <|
    runSteps_one (step_read_blk64 rfl rfl), rfl, exec_xform_eq _ dir, rfl, rfl⟩

end Sys2Proof.Machine

namespace Sys2Proof.Proofs

open Sys2Proof.Machine Sys2Proof.Statements

/-- Settles O11: nobody moves in the reset state, and a reset is a move that is made at once. -/
theorem resetLeavesTheCoreIdle : Obligations.ResetLeavesTheCoreIdle :=
  ⟨⟨rfl, by decide, rfl, rfl⟩, fun _ _ hh => ⟨_, step_of_move hh nofun, rfl, rfl, rfl⟩⟩

/-- Settles O12: it is `step_of_command`. -/
theorem stepRunsTheDecodedCommand : Obligations.StepRunsTheDecodedCommand := fun _ _ => step_of_command

/-- Settles O13: the placed word is the command's, and the turn is the sequencer's. -/
theorem fetchWordRunsTheCommand : Obligations.FetchWordRunsTheCommand := by
  intro s i
  have hword : (s.withFetchWord 32 (encode i).toNat).cmdReg = encode i := tableWord_toNat (encode i)
  refine ⟨step_of_command (sequencerToMove_withFetchWord s _ _) (by rw [hword, decodeWord_encode]), ?_⟩
  rw [State.withFetchWord, tableWord_toNat]
  rfl

/-- Settles O18: each access is one step, and the halves of `x` make `x` again. -/
theorem blk64AliasesLAndR : Obligations.Blk64AliasesLAndR := by
  refine ⟨fun s x rest hb hh => ⟨_, ?_, rfl⟩, fun s x rest hb hh => ⟨_, ?_, rfl⟩, fun s i hi => ?_⟩
  · rw [runSteps_of_step 1 (step_write_blk64 hb hh), runSteps_one (step_read_blk64 (by exact hb) rfl)]
    simp only [extractLsb'_append_halves]
  · have hl : WriteDoes 0x0014 (fun w s => { s with l := w }) := .of_writeWord rfl fun _ _ => rfl
    rw [runSteps_of_step 1 (hl s _ x hb hh), runSteps_one (step_read_blk64 (by exact hb) rfl)]
  · obtain ⟨t, ht⟩ := exec_total i s
    refine ⟨t, ht, exec_l ht hi, exec_r ht ?_⟩
    obtain rfl | rfl | rfl := hi <;> simp

/-- Settles O21: it is `runSteps_runCommand` on the state the command leaves. -/
theorem commandStatementRunsToDone : Obligations.CommandStatementRunsToDone := by
  intro s i rest hb hh
  obtain ⟨a, ha⟩ := exec_total i (issued i rest s)
  obtain ⟨-, hdone⟩ := exec_status ha
  exact ⟨a, _, ha, hdone, runSteps_runCommand hb hh ha, rfl⟩

/-- Settles O22: the statements one after the other leave the stages of `init1`. -/
theorem scriptSeedMixgcLeavesWhatInit1Leaves : Obligations.ScriptSeedMixgcLeavesWhatInit1Leaves := by
  intro s hb
  refine ⟨_, _,
    runSteps_runCommand_then 9 (rest := pseudoMixgc) hb rfl (exec_seed _) <|
    runSteps_runCommand_then 6 (rest := runCommand .mixstep ++ runCommand .mixstep) rfl rfl (exec_derive _) <|
    runSteps_runCommand_then 3 (rest := runCommand .mixstep) rfl rfl (exec_mixstep _) <|
    runSteps_runCommand (rest := []) rfl rfl (exec_mixstep _),
    runSteps_runCommand (rest := []) hb rfl (exec_init1 _), ?_, ?_, ?_, ?_, ?_⟩
  all_goals simp [polled, issued, init1]

/-- Settles O27: it is `runSteps_xform_blk64` in either direction. -/
theorem enc64TransformsTheBlockView : Obligations.Enc64TransformsTheBlockView :=
  fun _ _ _ hb => ⟨runSteps_xform_blk64 .forward hb, runSteps_xform_blk64 .reverse hb⟩

end Sys2Proof.Proofs
end
